-- ==== Sys2Proof/Word.lean ====
section
/-! DEFINITION. The word types of the E20 core (00_scope.md R9, R12, R13). -/

namespace Sys2Proof

/-- A register value, a memory cell or an instruction word: 16 bits (00_scope.md R9 `XLEN`, `ILEN`). -/
abbrev Word := BitVec 16

/-- The number of a general register, `0..7` (10_state.md R21). -/
abbrev Reg := Fin 8

/-- The short immediate field (00_scope.md R9 `IMMW`). -/
abbrev Imm7 := BitVec 7

/-- The jump immediate field (00_scope.md R9 `JIMMW`). -/
abbrev Imm13 := BitVec 13

/-- The bits 12:4 of a no-operation word, which the core ignores (30_encoding.md R91). -/
abbrev Ignored := BitVec 9

end Sys2Proof
end

