-- ==== Sys2Proof/Syntax.lean ====
section
/-! DEFINITION. The instructions: one constructor per row of spec/opcode_table.json. -/

namespace Sys2Proof

/-- The thirteen instructions (30_encoding.md R90) and the sixteen rows of the no-operation space (R91).
Field names are those of 30_encoding.md R82; a no-operation keeps its ignored bits 12:4, so that no bit of a
word is lost. -/
inductive Instr where
  | add (rA rB rC : Reg)
  | sub (rA rB rC : Reg)
  | or (rA rB rC : Reg)
  | and (rA rB rC : Reg)
  | slt (rA rB rC : Reg)
  | jr (rA : Reg)
  | j (imm13 : Imm13)
  | jal (imm13 : Imm13)
  | addi (rA rB : Reg) (imm7 : Imm7)
  | lw (rA rB : Reg) (imm7 : Imm7)
  | sw (rA rB : Reg) (imm7 : Imm7)
  | jeq (rA rB : Reg) (imm7 : Imm7)
  | slti (rA rB : Reg) (imm7 : Imm7)
  | nopFunc0101 (ignored : Ignored)
  | nopFunc0110 (ignored : Ignored)
  | nopFunc0111 (ignored : Ignored)
  | nopFunc1001 (ignored : Ignored)
  | nopFunc1010 (ignored : Ignored)
  | nopFunc1011 (ignored : Ignored)
  | nopFunc1100 (ignored : Ignored)
  | nopFunc1101 (ignored : Ignored)
  | nopFunc1110 (ignored : Ignored)
  | nopFunc1111 (ignored : Ignored)
  | nopFunc1000Bit9 (ignored : Ignored)
  | nopFunc1000Bit8 (ignored : Ignored)
  | nopFunc1000Bit7 (ignored : Ignored)
  | nopFunc1000Bit6 (ignored : Ignored)
  | nopFunc1000Bit5 (ignored : Ignored)
  | nopFunc1000Bit4 (ignored : Ignored)
  deriving DecidableEq, Repr

end Sys2Proof
end

