-- ==== Sys2Proof/WellFormed.lean ====
section
/-! DEFINITION. Which terms of Instr stand for a word of their own row. Register numbers and immediates are in
range by type; the check is on the six rows of `func = 1000`, each of which names the highest set bit of `ir[9:4]`. -/

namespace Sys2Proof

/-- The term has an encoding in its own row of spec/opcode_table.json. In `ignored` (bits 12:4 of the word) bit
`n` is bit `n + 4` of the word. -/
def Instr.wellFormed : Instr → Bool
  | .add _ _ _ => true
  | .sub _ _ _ => true
  | .or _ _ _ => true
  | .and _ _ _ => true
  | .slt _ _ _ => true
  | .jr _ => true
  | .j _ => true
  | .jal _ => true
  | .addi _ _ _ => true
  | .lw _ _ _ => true
  | .sw _ _ _ => true
  | .jeq _ _ _ => true
  | .slti _ _ _ => true
  | .nopFunc0101 _ => true
  | .nopFunc0110 _ => true
  | .nopFunc0111 _ => true
  | .nopFunc1001 _ => true
  | .nopFunc1010 _ => true
  | .nopFunc1011 _ => true
  | .nopFunc1100 _ => true
  | .nopFunc1101 _ => true
  | .nopFunc1110 _ => true
  | .nopFunc1111 _ => true
  | .nopFunc1000Bit9 ign => ign.extractLsb' 5 1 == 1#1
  | .nopFunc1000Bit8 ign => ign.extractLsb' 4 2 == 1#2
  | .nopFunc1000Bit7 ign => ign.extractLsb' 3 3 == 1#3
  | .nopFunc1000Bit6 ign => ign.extractLsb' 2 4 == 1#4
  | .nopFunc1000Bit5 ign => ign.extractLsb' 1 5 == 1#5
  | .nopFunc1000Bit4 ign => ign.extractLsb' 0 6 == 1#6

end Sys2Proof
end

