-- ==== Sys2Proof/Decode.lean ====
section
/-! DEFINITION. Decoding a word (30_encoding.md R82, R95), encoding an instruction (R81, R90), and the rows of
spec/opcode_table.json. The class values, function codes and field positions are the spec's own decision
(92_eei_decisions.md D5, general knowledge of the published E20): UNVERIFIED, log 10. -/

namespace Sys2Proof

/-! ### Field extraction (30_encoding.md R82) -/

/-- `op = ir[15:13]`. -/
def opField (ir : Word) : BitVec 3 := ir.extractLsb' 13 3

/-- `rA = ir[12:10]`. -/
def rAField (ir : Word) : Reg := (ir.extractLsb' 10 3).toFin

/-- `rB = ir[9:7]`. -/
def rBField (ir : Word) : Reg := (ir.extractLsb' 7 3).toFin

/-- `rC = ir[6:4]`. -/
def rCField (ir : Word) : Reg := (ir.extractLsb' 4 3).toFin

/-- `func = ir[3:0]`. -/
def funcField (ir : Word) : BitVec 4 := ir.extractLsb' 0 4

/-- `imm7 = ir[6:0]`. -/
def imm7Field (ir : Word) : Imm7 := ir.extractLsb' 0 7

/-- `imm13 = ir[12:0]`. -/
def imm13Field (ir : Word) : Imm13 := ir.extractLsb' 0 13

/-- `ir[12:4]`, the bits a no-operation ignores (30_encoding.md R91). -/
def ignoredField (ir : Word) : Ignored := ir.extractLsb' 4 9

/-! ### Decoding (30_encoding.md R95) -/

/-- Function code `1000` of class `000`: `jr` when `ir[9:4]` is 0 (30_encoding.md R89), else the no-operation row
of the highest set bit of `ir[9:4]`. -/
def decodeFunc1000 (ir : Word) : Instr :=
  if ir.extractLsb' 4 6 = 0#6 then .jr (rAField ir)
  else if ir.extractLsb' 9 1 = 1#1 then .nopFunc1000Bit9 (ignoredField ir)
  else if ir.extractLsb' 8 1 = 1#1 then .nopFunc1000Bit8 (ignoredField ir)
  else if ir.extractLsb' 7 1 = 1#1 then .nopFunc1000Bit7 (ignoredField ir)
  else if ir.extractLsb' 6 1 = 1#1 then .nopFunc1000Bit6 (ignoredField ir)
  else if ir.extractLsb' 5 1 = 1#1 then .nopFunc1000Bit5 (ignoredField ir)
  else .nopFunc1000Bit4 (ignoredField ir)

/-- Class `000`: dispatch on the low 4 bits (30_encoding.md R88, R91). The last line is the one code left, `1111`. -/
def decodeClass000 (ir : Word) : Instr :=
  let func := funcField ir
  if func = 0b0000#4 then .add (rAField ir) (rBField ir) (rCField ir)
  else if func = 0b0001#4 then .sub (rAField ir) (rBField ir) (rCField ir)
  else if func = 0b0010#4 then .or (rAField ir) (rBField ir) (rCField ir)
  else if func = 0b0011#4 then .and (rAField ir) (rBField ir) (rCField ir)
  else if func = 0b0100#4 then .slt (rAField ir) (rBField ir) (rCField ir)
  else if func = 0b0101#4 then .nopFunc0101 (ignoredField ir)
  else if func = 0b0110#4 then .nopFunc0110 (ignoredField ir)
  else if func = 0b0111#4 then .nopFunc0111 (ignoredField ir)
  else if func = 0b1000#4 then decodeFunc1000 ir
  else if func = 0b1001#4 then .nopFunc1001 (ignoredField ir)
  else if func = 0b1010#4 then .nopFunc1010 (ignoredField ir)
  else if func = 0b1011#4 then .nopFunc1011 (ignoredField ir)
  else if func = 0b1100#4 then .nopFunc1100 (ignoredField ir)
  else if func = 0b1101#4 then .nopFunc1101 (ignoredField ir)
  else if func = 0b1110#4 then .nopFunc1110 (ignoredField ir)
  else .nopFunc1111 (ignoredField ir)

/-- Every word is an instruction (30_encoding.md R92, R95): the decoder rejects nothing. The last line is the one
class left, `111`. -/
def decode (ir : Word) : Instr :=
  let op := opField ir
  if op = 0b000#3 then decodeClass000 ir
  else if op = 0b001#3 then .addi (rAField ir) (rBField ir) (imm7Field ir)
  else if op = 0b010#3 then .j (imm13Field ir)
  else if op = 0b011#3 then .jal (imm13Field ir)
  else if op = 0b100#3 then .lw (rAField ir) (rBField ir) (imm7Field ir)
  else if op = 0b101#3 then .sw (rAField ir) (rBField ir) (imm7Field ir)
  else if op = 0b110#3 then .jeq (rAField ir) (rBField ir) (imm7Field ir)
  else .slti (rAField ir) (rBField ir) (imm7Field ir)

/-- The instruction word in the low `nbits` bits of `w`, bits above them 0. -/
def tableWord (nbits w : Nat) : Word := BitVec.ofNat 16 (w % 2 ^ nbits)

/-- The decoder on an instruction numbered as spec/opcode_table.json numbers it. An instruction is one 16-bit
cell (30_encoding.md R80), so a row of more than 16 bits does not exist. -/
def decodeTableWord (nbits w : Nat) : Option Instr :=
  if nbits ≤ 16 then some (decode (tableWord nbits w)) else none

/-! ### Encoding (30_encoding.md R81, R90) -/

/-- The 3 bits of a register field. -/
def regBits (r : Reg) : BitVec 3 := BitVec.ofFin r

/-- Format RRR (30_encoding.md R81), class `000`. -/
def encodeRRR (rA rB rC : Reg) (func : BitVec 4) : Word :=
  (0b000#3 ++ regBits rA ++ regBits rB ++ regBits rC ++ func).cast (show 3 + 3 + 3 + 3 + 4 = 16 from rfl)

/-- Format RRI (30_encoding.md R81). -/
def encodeRRI (op : BitVec 3) (rA rB : Reg) (imm7 : Imm7) : Word :=
  (op ++ regBits rA ++ regBits rB ++ imm7).cast (show 3 + 3 + 3 + 7 = 16 from rfl)

/-- Format J (30_encoding.md R81). -/
def encodeJ (op : BitVec 3) (imm13 : Imm13) : Word := (op ++ imm13).cast (show 3 + 13 = 16 from rfl)

/-- A no-operation word (30_encoding.md R91): class `000`, nine ignored bits, a function code. -/
def encodeNop (ignored : Ignored) (func : BitVec 4) : Word :=
  (0b000#3 ++ ignored ++ func).cast (show 3 + 9 + 4 = 16 from rfl)

/-- The one word of an instruction (30_encoding.md R80, R90). -/
def encode : Instr → Word
  | .add rA rB rC => encodeRRR rA rB rC 0b0000#4
  | .sub rA rB rC => encodeRRR rA rB rC 0b0001#4
  | .or rA rB rC => encodeRRR rA rB rC 0b0010#4
  | .and rA rB rC => encodeRRR rA rB rC 0b0011#4
  | .slt rA rB rC => encodeRRR rA rB rC 0b0100#4
  | .jr rA => encodeRRR rA 0 0 0b1000#4
  | .j imm13 => encodeJ 0b010#3 imm13
  | .jal imm13 => encodeJ 0b011#3 imm13
  | .addi rA rB imm7 => encodeRRI 0b001#3 rA rB imm7
  | .lw rA rB imm7 => encodeRRI 0b100#3 rA rB imm7
  | .sw rA rB imm7 => encodeRRI 0b101#3 rA rB imm7
  | .jeq rA rB imm7 => encodeRRI 0b110#3 rA rB imm7
  | .slti rA rB imm7 => encodeRRI 0b111#3 rA rB imm7
  | .nopFunc0101 ign => encodeNop ign 0b0101#4
  | .nopFunc0110 ign => encodeNop ign 0b0110#4
  | .nopFunc0111 ign => encodeNop ign 0b0111#4
  | .nopFunc1001 ign => encodeNop ign 0b1001#4
  | .nopFunc1010 ign => encodeNop ign 0b1010#4
  | .nopFunc1011 ign => encodeNop ign 0b1011#4
  | .nopFunc1100 ign => encodeNop ign 0b1100#4
  | .nopFunc1101 ign => encodeNop ign 0b1101#4
  | .nopFunc1110 ign => encodeNop ign 0b1110#4
  | .nopFunc1111 ign => encodeNop ign 0b1111#4
  | .nopFunc1000Bit9 ign => encodeNop ign 0b1000#4
  | .nopFunc1000Bit8 ign => encodeNop ign 0b1000#4
  | .nopFunc1000Bit7 ign => encodeNop ign 0b1000#4
  | .nopFunc1000Bit6 ign => encodeNop ign 0b1000#4
  | .nopFunc1000Bit5 ign => encodeNop ign 0b1000#4
  | .nopFunc1000Bit4 ign => encodeNop ign 0b1000#4

/-! ### The opcode table (spec/opcode_table.json) -/

/-- The fixed bits of a row: a word `w` belongs to the row when `w AND mask = pattern`. -/
def rowMatches (mask pattern w : Word) : Bool := w &&& mask == pattern

/-- The mask and the pattern of an instruction's row of spec/opcode_table.json. -/
def Instr.row : Instr → Word × Word
  | .add _ _ _ => (0xE00F, 0x0000)
  | .sub _ _ _ => (0xE00F, 0x0001)
  | .or _ _ _ => (0xE00F, 0x0002)
  | .and _ _ _ => (0xE00F, 0x0003)
  | .slt _ _ _ => (0xE00F, 0x0004)
  | .jr _ => (0xE3FF, 0x0008)
  | .j _ => (0xE000, 0x4000)
  | .jal _ => (0xE000, 0x6000)
  | .addi _ _ _ => (0xE000, 0x2000)
  | .lw _ _ _ => (0xE000, 0x8000)
  | .sw _ _ _ => (0xE000, 0xA000)
  | .jeq _ _ _ => (0xE000, 0xC000)
  | .slti _ _ _ => (0xE000, 0xE000)
  | .nopFunc0101 _ => (0xE00F, 0x0005)
  | .nopFunc0110 _ => (0xE00F, 0x0006)
  | .nopFunc0111 _ => (0xE00F, 0x0007)
  | .nopFunc1001 _ => (0xE00F, 0x0009)
  | .nopFunc1010 _ => (0xE00F, 0x000A)
  | .nopFunc1011 _ => (0xE00F, 0x000B)
  | .nopFunc1100 _ => (0xE00F, 0x000C)
  | .nopFunc1101 _ => (0xE00F, 0x000D)
  | .nopFunc1110 _ => (0xE00F, 0x000E)
  | .nopFunc1111 _ => (0xE00F, 0x000F)
  | .nopFunc1000Bit9 _ => (0xE20F, 0x0208)
  | .nopFunc1000Bit8 _ => (0xE30F, 0x0108)
  | .nopFunc1000Bit7 _ => (0xE38F, 0x0088)
  | .nopFunc1000Bit6 _ => (0xE3CF, 0x0048)
  | .nopFunc1000Bit5 _ => (0xE3EF, 0x0028)
  | .nopFunc1000Bit4 _ => (0xE3FF, 0x0018)

/-- The 29 rows of spec/opcode_table.json, mask and pattern, in the table's order. -/
def opcodeRows : List (Word × Word) :=
  [(0xE00F, 0x0000), (0xE00F, 0x0001), (0xE00F, 0x0002), (0xE00F, 0x0003), (0xE00F, 0x0004), (0xE3FF, 0x0008),
   (0xE000, 0x4000), (0xE000, 0x6000), (0xE000, 0x2000), (0xE000, 0x8000), (0xE000, 0xA000), (0xE000, 0xC000),
   (0xE000, 0xE000)] ++
  [(0xE00F, 0x0005), (0xE00F, 0x0006), (0xE00F, 0x0007), (0xE00F, 0x0009), (0xE00F, 0x000A), (0xE00F, 0x000B),
   (0xE00F, 0x000C), (0xE00F, 0x000D), (0xE00F, 0x000E), (0xE00F, 0x000F)] ++
  [(0xE20F, 0x0208), (0xE30F, 0x0108), (0xE38F, 0x0088), (0xE3CF, 0x0048), (0xE3EF, 0x0028), (0xE3FF, 0x0018)]

/-- The instruction is a word of the no-operation space (30_encoding.md R91). -/
def Instr.isNop : Instr → Bool
  | .add _ _ _ => false
  | .sub _ _ _ => false
  | .or _ _ _ => false
  | .and _ _ _ => false
  | .slt _ _ _ => false
  | .jr _ => false
  | .j _ => false
  | .jal _ => false
  | .addi _ _ _ => false
  | .lw _ _ _ => false
  | .sw _ _ _ => false
  | .jeq _ _ _ => false
  | .slti _ _ _ => false
  | .nopFunc0101 _ => true
  | .nopFunc0110 _ => true
  | .nopFunc0111 _ => true
  | .nopFunc1001 _ => true
  | .nopFunc1010 _ => true
  | .nopFunc1011 _ => true
  | .nopFunc1100 _ => true
  | .nopFunc1101 _ => true
  | .nopFunc1110 _ => true
  | .nopFunc1111 _ => true
  | .nopFunc1000Bit9 _ => true
  | .nopFunc1000Bit8 _ => true
  | .nopFunc1000Bit7 _ => true
  | .nopFunc1000Bit6 _ => true
  | .nopFunc1000Bit5 _ => true
  | .nopFunc1000Bit4 _ => true

end Sys2Proof
end

