-- ==== Sys2Proof/Config.lean ====
section
/-! DEFINITION. Fixed parameters of every instance of the hardware (00_scope.md R9), and the values the spec leaves open. -/

namespace Sys2Proof.Config

/-- `MEMCELLS` (00_scope.md R9). -/
def memCells : Nat := 8192

/-- `MAXLEVELS` (00_scope.md R9). -/
def maxLevels : Nat := 2

/-- The failure status of a configuration error is a number other than 0 that the spec does not give
(46_interfaces_and_log.md R237, 93_implementation_defined.md U10); the status is this free value plus 1. Log 8. -/
opaque configErrorStatusPred : Nat

/-- The spec gives no exit status of an image error at all (46_interfaces_and_log.md R237): a free value. Log 8. -/
opaque imageErrorStatus : Nat

end Sys2Proof.Config
end

