-- ==== Sys2Proof/Machine/State.lean ====
section
/-! DEFINITION. The state of the core as plain data (10_state.md R20), its value after reset (R38), and the reasons a
step can stop. -/

namespace Sys2Proof.Machine

/-- A cache block: the tag and the clock of its latest access (10_state.md R32). It holds no data. -/
structure Block where
  tag : Nat
  recency : Nat
  deriving DecidableEq, Repr

/-- A row: its blocks in stored order, way 0 first; an empty way is absent (10_state.md R33). -/
abbrev Row := List Block

/-- The static configuration of one level, in cells and ways (00_scope.md R10, 10_state.md R31). -/
structure LevelConfig where
  size : Nat
  assoc : Nat
  bsize : Nat
  deriving DecidableEq, Repr

/-- One cache level: its configuration and its rows (10_state.md R31, R34). -/
structure CacheLevel where
  cfg : LevelConfig
  rows : List Row
  deriving DecidableEq, Repr

/-- The kind of an access event (46_interfaces_and_log.md R234). -/
inductive EventKind where
  | hit
  | miss
  | sw
  deriving DecidableEq, Repr

/-- A record of the output: an access event with its fields in the order of 46_interfaces_and_log.md R233, or a
configuration report (R235). -/
inductive Event where
  | access (level : Nat) (kind : EventKind) (pc : Word) (addr row : Nat)
  | config (level size assoc bsize rows : Nat)
  deriving DecidableEq, Repr

/-- The two pre-run errors (60_exceptions.md R252, R253). `level` is the first offending level, 0 for a bad number
of levels. -/
inductive LaunchError where
  | configError (level : Nat)
  | imageError
  deriving DecidableEq, Repr

/-- The run state. `running` and `halted` are the two of 10_state.md R27. The other two are the model's names for
a core that has not entered `Running`: reset is asserted (46_interfaces_and_log.md R230), or a pre-run error was
raised (60_exceptions.md R252, R253). DESIGN CHOICE, log 5. -/
inductive RunState where
  | running
  | halted
  | inReset
  | failed (e : LaunchError)
  deriving DecidableEq, Repr

/-- Memory: the cells that do not hold 0, by cell number, in rising order (20_memory.md R50). A cell is 16 bits and
no access sees part of one (R54), so there are no bytes: DEDUCED, log 1. An unlisted cell reads as 0: PRESUMED, log 2. -/
abbrev Memory := List (Nat × Word)

/-- The whole state of the core (10_state.md R20). The configuration of the cache is carried in `cache`, although
no step changes it (DESIGN CHOICE, log 4). -/
structure State where
  /-- `x[0..7]`, 10_state.md R21 -/
  regs : Vector Word 8
  /-- the program counter, 10_state.md R24 -/
  pc : Word
  /-- `mem[0..8191]`, 20_memory.md R50 -/
  mem : Memory
  /-- 10_state.md R27; also `cfg_error` and `image_error` of 46_interfaces_and_log.md R237 -/
  run : RunState
  /-- the logical clock, 10_state.md R28 -/
  clk : Nat
  /-- the configured levels, level 1 first, 10_state.md R31 to R34 -/
  cache : List CacheLevel
  /-- the output sequence, oldest first, 46_interfaces_and_log.md R232 -/
  events : List Event
  deriving DecidableEq, Repr

/-- Reset released with the empty image and no cache level (10_state.md R38). The image and the configuration are
parameters of a run (00_scope.md R10) for which the spec gives no value: DESIGN CHOICE, log 3. -/
def State.reset : State :=
  { regs := Vector.replicate 8 0, pc := 0, mem := [], run := .running, clk := 0, cache := [], events := [] }

/-- Why the machine stops. No instruction raises one (60_exceptions.md R250). -/
inductive Fault where
  /-- Raised by `step` on a state whose launch was refused for its configuration (60_exceptions.md R252). Safe: the
  spec gives such a launch no execution (R255). Log 6. -/
  | configError (level : Nat)
  /-- Raised by `step` on a state whose launch was refused for an oversized image (60_exceptions.md R253). Safe: the
  spec gives such a launch no execution (R255). Log 6. -/
  | imageError
  deriving DecidableEq, Repr

/-- Why the model has no answer. -/
inductive Refusal where
  /-- Raised by an arm of `exec` whose instruction has no meaning yet. Safe. No arm raises it in this model. -/
  | notModelled (mnemonic : String)
  deriving DecidableEq, Repr

end Sys2Proof.Machine
end

