-- ==== Sys2Proof/Machine/Flags.lean ====
section
/-! DEFINITION. The core has no flags (10_state.md R29): a comparison is a value or a decision of one instruction. -/

namespace Sys2Proof.Machine

/-- The result of `slt` and `slti`: unsigned (41_register_alu.md R135, 43_immediate_alu.md R172). -/
def setLess (a b : Word) : Word := if a.toNat < b.toNat then 1 else 0

/-- The condition of `jeq`, on all 16 bits (42_control_transfer.md R154). -/
def branchTaken (a b : Word) : Bool := a == b

/-- The halt condition of `j` (42_control_transfer.md R152). -/
def isSelfJump (target pc : Word) : Bool := target == pc

end Sys2Proof.Machine
end

