-- ==== Sys2Proof/Machine/Operands.lean ====
section
/-! DEFINITION. Operand forms: extensions, the effective address, the targets and the link value. -/

namespace Sys2Proof.Machine

/-- `sext_7` (00_scope.md R14, 30_encoding.md R84). -/
def sext7 (v : Imm7) : Word := v.signExtend 16

/-- `zext_13` (00_scope.md R14, 30_encoding.md R85). -/
def zext13 (v : Imm13) : Word := v.setWidth 16

/-- `LINKREG` (00_scope.md R9). -/
def linkReg : Reg := 7

/-- `PCMOD` (92_eei_decisions.md D1, 90_conflicts.md C1): the spec's own decision. UNVERIFIED, log 9. -/
def pcMod : Nat := 8192

/-- A value reduced before it is written to `pc` (10_state.md R25). -/
def pcReduce (v : Word) : Word := BitVec.ofNat 16 (v.toNat % pcMod)

/-- The default next `pc` (40_instruction_cycle.md R111, R114). -/
def seqPc (pc : Word) : Word := pcReduce (pc + 1)

/-- The target of a taken `jeq`, relative to the next instruction (42_control_transfer.md R154). The plus 1 is the
spec's own decision: UNVERIFIED, log 11. -/
def relativeTarget (pc : Word) (imm7 : Imm7) : Word := pcReduce (pc + 1 + sext7 imm7)

/-- The target of `jr` (42_control_transfer.md R151). -/
def registerTarget (a : Word) : Word := pcReduce a

/-- The target of `j` and `jal` (30_encoding.md R85). -/
def absoluteTarget (imm13 : Imm13) : Word := zext13 imm13

/-- The link value of `jal`, not reduced modulo 8192 (42_control_transfer.md R153): UNVERIFIED, log 11. -/
def linkValue (pc : Word) : Word := pc + 1

/-- The cell a 16-bit value or a cell number names (20_memory.md R52). -/
def cellIndex (v : Nat) : Nat := v % Config.memCells

/-- The one addressing mode (44_load_store.md R180). -/
def effectiveAddr (a : Word) (imm7 : Imm7) : Nat := cellIndex (a + sext7 imm7).toNat

end Sys2Proof.Machine
end

