-- ==== Sys2Proof/Machine/Ops.lean ====
section
/-! DEFINITION. The named operations over registers and memory, and the common end of every instruction. The core
takes no exception and returns from none (60_exceptions.md R250, R257, R258), so there is no such operation. -/

namespace Sys2Proof.Machine

/-! ### Registers (00_scope.md R15) -/

/-- `x[i]`. -/
def readReg (s : State) (i : Reg) : Word := s.regs[i]

/-- `x[i] <- v`. A write of register 0 is forced back by `retire` (10_state.md R22, way (a)). -/
def writeReg (s : State) (i : Reg) (v : Word) : State := { s with regs := s.regs.set i v }

/-! ### Memory (20_memory.md R52) -/

/-- The content of a cell that no entry names (20_memory.md R53): PRESUMED 0, log 2. -/
def unlistedCell : Word := 0

/-- The content of cell `a`. -/
def Memory.read (m : Memory) (a : Nat) : Word :=
  match m with
  | [] => unlistedCell
  | c :: rest => if c.1 = a then c.2 else Memory.read rest a

/-- Put an entry in front of the first entry of a higher cell. -/
def Memory.insert (m : Memory) (a : Nat) (v : Word) : Memory :=
  match m with
  | [] => [(a, v)]
  | c :: rest => if a < c.1 then (a, v) :: c :: rest else c :: Memory.insert rest a v

/-- Memory without cell `a`'s entry. -/
def Memory.erase (m : Memory) (a : Nat) : Memory := m.filter (fun c => c.1 != a)

/-- Set cell `a`; the value an unlisted cell reads as is not listed. -/
def Memory.write (m : Memory) (a : Nat) (v : Word) : Memory :=
  if v = unlistedCell then Memory.erase m a else Memory.insert (Memory.erase m a) a v

/-- The canonical form: cells strictly rising, all of them cells of the machine, none holding what an unlisted
cell reads as. -/
abbrev Memory.wf (m : Memory) : Prop :=
  m.Pairwise (fun c d => c.1 < d.1) ∧ ∀ c ∈ m, c.1 < Config.memCells ∧ c.2 ≠ unlistedCell

/-- The listed cells of an image whose first word is in cell `i`. -/
def Memory.ofImageFrom (i : Nat) : List Word → Memory
  | [] => []
  | w :: rest => if w = unlistedCell then Memory.ofImageFrom (i + 1) rest else (i, w) :: Memory.ofImageFrom (i + 1) rest

/-- Memory loaded from an image whose first word is in cell 0 (20_memory.md R53). -/
def Memory.ofImage (image : List Word) : Memory := Memory.ofImageFrom 0 image

/-- `MemRead(addr, 1)`. -/
def memRead (s : State) (addr : Nat) : Word := Memory.read s.mem (cellIndex addr)

/-- `MemWrite(addr, 1, v)`. -/
def memWrite (s : State) (addr : Nat) (v : Word) : State := { s with mem := Memory.write s.mem (cellIndex addr) v }

/-- The word `step` fetches: a plain read of the cell `pc mod 8192` (40_instruction_cycle.md R112). -/
def fetch (s : State) : Word := memRead s s.pc.toNat

/-! ### The common end of an instruction (40_instruction_cycle.md R111) -/

/-- Force register 0 to 0, write `pc`, advance the clock, halt if asked. -/
def retire (s : State) (npc : Word) (halt : Bool) : State :=
  { s with
    regs := s.regs.set 0 0
    pc := npc
    clk := s.clk + 1
    run := if halt then .halted else s.run }

/-! ### A core that is not running -/

/-- What a step of a core that is not running is. While `Halted` or held in reset nothing happens
(40_instruction_cycle.md R119, 46_interfaces_and_log.md R230); a refused launch has no execution
(60_exceptions.md R255). DESIGN CHOICE, log 6. -/
def notRunning (s : State) : Host.Outcome State Fault Refusal :=
  match s.run with
  | .running => .next s
  | .halted => .next s
  | .inReset => .next s
  | .failed (.configError level) => .fault (.configError level)
  | .failed .imageError => .fault .imageError

end Sys2Proof.Machine
end

