-- ==== Sys2Proof/Machine/Cache.lean ====
section
/-! DEFINITION. The cache controller: decomposition, row scan, access with LRU eviction, the read and the write
probe (45_cache_hierarchy.md). -/

namespace Sys2Proof.Machine

/-- `rows_k` (00_scope.md R10). -/
def LevelConfig.numRows (c : LevelConfig) : Nat := c.size / (c.bsize * c.assoc)

/-- `Decompose`: the row index and the tag of an address at a level (45_cache_hierarchy.md R193). -/
def decompose (c : LevelConfig) (addr : Nat) : Nat × Nat :=
  let bid := addr / c.bsize
  (bid % c.numRows, bid / c.numRows)

/-- The outcome of a row scan (45_cache_hierarchy.md R195). -/
inductive ScanResult where
  | hit (way : Nat)
  | miss (victim : Option Nat)
  deriving DecidableEq, Repr

/-- The scan found the tag (45_cache_hierarchy.md R196). -/
def ScanResult.isHit : ScanResult → Bool
  | .hit _ => true
  | .miss _ => false

/-- The least way among those of smallest recency, with its recency; none for an empty row
(45_cache_hierarchy.md R195, R198). -/
def leastRecent : Row → Option (Nat × Nat)
  | [] => none
  | b :: rest =>
    match leastRecent rest with
    | none => some (0, b.recency)
    | some (way, recency) => if b.recency ≤ recency then some (0, b.recency) else some (way + 1, recency)

/-- `Scan` (45_cache_hierarchy.md R195). -/
def scan (blocks : Row) (tag : Nat) : ScanResult :=
  match blocks.findIdx? (fun b => b.tag == tag) with
  | some way => .hit way
  | none => .miss ((leastRecent blocks).map (·.1))

/-- The row after an access with this tag at this clock (45_cache_hierarchy.md R196, R197). A new block takes the
victim's way in a full row and the lowest free way otherwise: the spec's own decision (D13), log 15. -/
def touchRow (assoc : Nat) (blocks : Row) (tag clk : Nat) : Row :=
  match scan blocks tag with
  | .hit way => blocks.modify way (fun b => { b with recency := clk })
  | .miss victim =>
    if blocks.length = assoc then blocks.set (victim.getD 0) ⟨tag, clk⟩ else blocks ++ [⟨tag, clk⟩]

/-- What `Access` gives: the level after it, whether it hit, and the row it used. -/
structure AccessResult where
  level : CacheLevel
  hit : Bool
  row : Nat
  deriving DecidableEq, Repr

/-- `Access` (45_cache_hierarchy.md R197). -/
def access (lv : CacheLevel) (addr clk : Nat) : AccessResult :=
  let (row, tag) := decompose lv.cfg addr
  let blocks := lv.rows.getD row []
  { level := { lv with rows := lv.rows.set row (touchRow lv.cfg.assoc blocks tag clk) }
    hit := (scan blocks tag).isHit
    row := row }

/-- The levels after a probe, and the events it emits. -/
structure ProbeResult where
  levels : List CacheLevel
  events : List Event
  deriving DecidableEq, Repr

/-- The read walk from level `k` on: it stops at the first hit (45_cache_hierarchy.md R200). -/
def readWalk (k : Nat) (levels : List CacheLevel) (addr clk : Nat) (pc : Word) : ProbeResult :=
  match levels with
  | [] => ⟨[], []⟩
  | lv :: rest =>
    let r := access lv addr clk
    if r.hit then ⟨r.level :: rest, [.access k .hit pc addr r.row]⟩
    else
      let deeper := readWalk (k + 1) rest addr clk pc
      ⟨r.level :: deeper.levels, .access k .miss pc addr r.row :: deeper.events⟩

/-- The write walk from level `k` on: it visits every level (45_cache_hierarchy.md R205). -/
def writeWalk (k : Nat) (levels : List CacheLevel) (addr clk : Nat) (pc : Word) : ProbeResult :=
  match levels with
  | [] => ⟨[], []⟩
  | lv :: rest =>
    let r := access lv addr clk
    let deeper := writeWalk (k + 1) rest addr clk pc
    ⟨r.level :: deeper.levels, .access k .sw pc addr r.row :: deeper.events⟩

/-- `emit`: append to the output (46_interfaces_and_log.md R232). -/
def emit (s : State) (es : List Event) : State := { s with events := s.events ++ es }

/-- `ReadProbe(addr, clk, pc)` with the current clock and pc (40_instruction_cycle.md R117). -/
def readProbe (s : State) (addr : Nat) : State :=
  let r := readWalk 1 s.cache addr s.clk s.pc
  emit { s with cache := r.levels } r.events

/-- `WriteProbe(addr, clk, pc)` with the current clock and pc (40_instruction_cycle.md R117). -/
def writeProbe (s : State) (addr : Nat) : State :=
  let r := writeWalk 1 s.cache addr s.clk s.pc
  emit { s with cache := r.levels } r.events

end Sys2Proof.Machine
end

