-- ==== Sys2Proof/Machine/ControlTransfer.lean ====
section
/-! DEFINITION. The meanings of `jr`, `j`, `jal` and `jeq` (42_control_transfer.md). -/

namespace Sys2Proof.Machine

/-- 42_control_transfer.md R151. -/
def execJr (rA : Reg) (s : State) : Host.Outcome State Fault Refusal :=
  .next (retire s (registerTarget (readReg s rA)) false)

/-- 42_control_transfer.md R152: the one instruction that can halt. -/
def execJ (imm13 : Imm13) (s : State) : Host.Outcome State Fault Refusal :=
  .next (retire s (absoluteTarget imm13) (isSelfJump (absoluteTarget imm13) s.pc))

/-- 42_control_transfer.md R153. -/
def execJal (imm13 : Imm13) (s : State) : Host.Outcome State Fault Refusal :=
  .next (retire (writeReg s linkReg (linkValue s.pc)) (absoluteTarget imm13) false)

/-- 42_control_transfer.md R154. -/
def execJeq (rA rB : Reg) (imm7 : Imm7) (s : State) : Host.Outcome State Fault Refusal :=
  .next (retire s (if branchTaken (readReg s rA) (readReg s rB) then relativeTarget s.pc imm7 else seqPc s.pc) false)

end Sys2Proof.Machine
end

