-- ==== Sys2Proof/Machine/ImmediateAlu.lean ====
section
/-! DEFINITION. The meanings of `addi` and `slti` (43_immediate_alu.md). -/

namespace Sys2Proof.Machine

/-- A register-immediate instruction: read `rA`, write `rB`, advance (43_immediate_alu.md R170). -/
def execRRI (f : Word → Word → Word) (rA rB : Reg) (imm7 : Imm7) (s : State) : Host.Outcome State Fault Refusal :=
  .next (retire (writeReg s rB (f (readReg s rA) (sext7 imm7))) (seqPc s.pc) false)

/-- 43_immediate_alu.md R171. -/
def execAddi (rA rB : Reg) (imm7 : Imm7) (s : State) : Host.Outcome State Fault Refusal :=
  execRRI (fun a imm => a + imm) rA rB imm7 s

/-- 43_immediate_alu.md R172. -/
def execSlti (rA rB : Reg) (imm7 : Imm7) (s : State) : Host.Outcome State Fault Refusal := execRRI setLess rA rB imm7 s

end Sys2Proof.Machine
end

