-- ==== Sys2Proof/Machine/LoadStore.lean ====
section
/-! DEFINITION. The meanings of `lw` and `sw` (44_load_store.md). -/

namespace Sys2Proof.Machine

/-- 44_load_store.md R181: read the cell, write `rB`, then the read probe with the clock and pc of the instruction. -/
def execLw (rA rB : Reg) (imm7 : Imm7) (s : State) : Host.Outcome State Fault Refusal :=
  let ea := effectiveAddr (readReg s rA) imm7
  .next (retire (readProbe (writeReg s rB (memRead s ea)) ea) (seqPc s.pc) false)

/-- 44_load_store.md R182: write the cell, then the write probe with the clock and pc of the instruction. -/
def execSw (rA rB : Reg) (imm7 : Imm7) (s : State) : Host.Outcome State Fault Refusal :=
  let ea := effectiveAddr (readReg s rA) imm7
  .next (retire (writeProbe (memWrite s ea (readReg s rB)) ea) (seqPc s.pc) false)

end Sys2Proof.Machine
end

