-- ==== Sys2Proof/Machine/RegisterAlu.lean ====
section
/-! DEFINITION. The meanings of `add`, `sub`, `or`, `and`, `slt` and of the no-operation words (41_register_alu.md). -/

namespace Sys2Proof.Machine

/-- A register-register instruction: read both operands, write `rC`, advance (41_register_alu.md R130). -/
def execRRR (f : Word → Word → Word) (rA rB rC : Reg) (s : State) : Host.Outcome State Fault Refusal :=
  .next (retire (writeReg s rC (f (readReg s rA) (readReg s rB))) (seqPc s.pc) false)

/-- 41_register_alu.md R131. -/
def execAdd (rA rB rC : Reg) (s : State) : Host.Outcome State Fault Refusal := execRRR (fun a b => a + b) rA rB rC s

/-- 41_register_alu.md R132. -/
def execSub (rA rB rC : Reg) (s : State) : Host.Outcome State Fault Refusal := execRRR (fun a b => a - b) rA rB rC s

/-- 41_register_alu.md R133. -/
def execOr (rA rB rC : Reg) (s : State) : Host.Outcome State Fault Refusal := execRRR (fun a b => a ||| b) rA rB rC s

/-- 41_register_alu.md R134. -/
def execAnd (rA rB rC : Reg) (s : State) : Host.Outcome State Fault Refusal := execRRR (fun a b => a &&& b) rA rB rC s

/-- 41_register_alu.md R135. -/
def execSlt (rA rB rC : Reg) (s : State) : Host.Outcome State Fault Refusal := execRRR setLess rA rB rC s

/-- A no-operation: only the common end of the instruction (41_register_alu.md R136). That the clock advances is the
spec's own decision (D7), log 12. -/
def execNop (s : State) : Host.Outcome State Fault Refusal := .next (retire s (seqPc s.pc) false)

/-- 41_register_alu.md R136, function code `0101`. -/
def execNopFunc0101 (_ : Ignored) (s : State) : Host.Outcome State Fault Refusal := execNop s

/-- 41_register_alu.md R136, function code `0110`. -/
def execNopFunc0110 (_ : Ignored) (s : State) : Host.Outcome State Fault Refusal := execNop s

/-- 41_register_alu.md R136, function code `0111`. -/
def execNopFunc0111 (_ : Ignored) (s : State) : Host.Outcome State Fault Refusal := execNop s

/-- 41_register_alu.md R136, function code `1001`. -/
def execNopFunc1001 (_ : Ignored) (s : State) : Host.Outcome State Fault Refusal := execNop s

/-- 41_register_alu.md R136, function code `1010`. -/
def execNopFunc1010 (_ : Ignored) (s : State) : Host.Outcome State Fault Refusal := execNop s

/-- 41_register_alu.md R136, function code `1011`. -/
def execNopFunc1011 (_ : Ignored) (s : State) : Host.Outcome State Fault Refusal := execNop s

/-- 41_register_alu.md R136, function code `1100`. -/
def execNopFunc1100 (_ : Ignored) (s : State) : Host.Outcome State Fault Refusal := execNop s

/-- 41_register_alu.md R136, function code `1101`. -/
def execNopFunc1101 (_ : Ignored) (s : State) : Host.Outcome State Fault Refusal := execNop s

/-- 41_register_alu.md R136, function code `1110`. -/
def execNopFunc1110 (_ : Ignored) (s : State) : Host.Outcome State Fault Refusal := execNop s

/-- 41_register_alu.md R136, function code `1111`. -/
def execNopFunc1111 (_ : Ignored) (s : State) : Host.Outcome State Fault Refusal := execNop s

/-- 41_register_alu.md R136 and 30_encoding.md R89, function code `1000`, bit 9 the highest set bit of `ir[9:4]`. -/
def execNopFunc1000Bit9 (_ : Ignored) (s : State) : Host.Outcome State Fault Refusal := execNop s

/-- 41_register_alu.md R136 and 30_encoding.md R89, function code `1000`, bit 8 the highest set bit of `ir[9:4]`. -/
def execNopFunc1000Bit8 (_ : Ignored) (s : State) : Host.Outcome State Fault Refusal := execNop s

/-- 41_register_alu.md R136 and 30_encoding.md R89, function code `1000`, bit 7 the highest set bit of `ir[9:4]`. -/
def execNopFunc1000Bit7 (_ : Ignored) (s : State) : Host.Outcome State Fault Refusal := execNop s

/-- 41_register_alu.md R136 and 30_encoding.md R89, function code `1000`, bit 6 the highest set bit of `ir[9:4]`. -/
def execNopFunc1000Bit6 (_ : Ignored) (s : State) : Host.Outcome State Fault Refusal := execNop s

/-- 41_register_alu.md R136 and 30_encoding.md R89, function code `1000`, bit 5 the highest set bit of `ir[9:4]`. -/
def execNopFunc1000Bit5 (_ : Ignored) (s : State) : Host.Outcome State Fault Refusal := execNop s

/-- 41_register_alu.md R136 and 30_encoding.md R89, function code `1000`, bit 4 the highest set bit of `ir[9:4]`. -/
def execNopFunc1000Bit4 (_ : Ignored) (s : State) : Host.Outcome State Fault Refusal := execNop s

end Sys2Proof.Machine
end

