-- ==== Sys2Proof/Machine/Dispatch.lean ====
section
/-! DEFINITION. One arm per instruction: each a direct call of its meaning. -/

namespace Sys2Proof.Machine

def exec (i : Instr) (s : State) : Host.Outcome State Fault Refusal :=
  match i with
  | .add rA rB rC => Sys2Proof.Machine.execAdd rA rB rC s
  | .sub rA rB rC => Sys2Proof.Machine.execSub rA rB rC s
  | .or rA rB rC => Sys2Proof.Machine.execOr rA rB rC s
  | .and rA rB rC => Sys2Proof.Machine.execAnd rA rB rC s
  | .slt rA rB rC => Sys2Proof.Machine.execSlt rA rB rC s
  | .jr rA => Sys2Proof.Machine.execJr rA s
  | .j imm13 => Sys2Proof.Machine.execJ imm13 s
  | .jal imm13 => Sys2Proof.Machine.execJal imm13 s
  | .addi rA rB imm7 => Sys2Proof.Machine.execAddi rA rB imm7 s
  | .lw rA rB imm7 => Sys2Proof.Machine.execLw rA rB imm7 s
  | .sw rA rB imm7 => Sys2Proof.Machine.execSw rA rB imm7 s
  | .jeq rA rB imm7 => Sys2Proof.Machine.execJeq rA rB imm7 s
  | .slti rA rB imm7 => Sys2Proof.Machine.execSlti rA rB imm7 s
  | .nopFunc0101 ignored => Sys2Proof.Machine.execNopFunc0101 ignored s
  | .nopFunc0110 ignored => Sys2Proof.Machine.execNopFunc0110 ignored s
  | .nopFunc0111 ignored => Sys2Proof.Machine.execNopFunc0111 ignored s
  | .nopFunc1001 ignored => Sys2Proof.Machine.execNopFunc1001 ignored s
  | .nopFunc1010 ignored => Sys2Proof.Machine.execNopFunc1010 ignored s
  | .nopFunc1011 ignored => Sys2Proof.Machine.execNopFunc1011 ignored s
  | .nopFunc1100 ignored => Sys2Proof.Machine.execNopFunc1100 ignored s
  | .nopFunc1101 ignored => Sys2Proof.Machine.execNopFunc1101 ignored s
  | .nopFunc1110 ignored => Sys2Proof.Machine.execNopFunc1110 ignored s
  | .nopFunc1111 ignored => Sys2Proof.Machine.execNopFunc1111 ignored s
  | .nopFunc1000Bit9 ignored => Sys2Proof.Machine.execNopFunc1000Bit9 ignored s
  | .nopFunc1000Bit8 ignored => Sys2Proof.Machine.execNopFunc1000Bit8 ignored s
  | .nopFunc1000Bit7 ignored => Sys2Proof.Machine.execNopFunc1000Bit7 ignored s
  | .nopFunc1000Bit6 ignored => Sys2Proof.Machine.execNopFunc1000Bit6 ignored s
  | .nopFunc1000Bit5 ignored => Sys2Proof.Machine.execNopFunc1000Bit5 ignored s
  | .nopFunc1000Bit4 ignored => Sys2Proof.Machine.execNopFunc1000Bit4 ignored s

end Sys2Proof.Machine
end

