-- ==== Sys2Proof/Machine/Launch.lean ====
section
/-! DEFINITION. Reset, the two pre-run errors, and the outputs of the core to its host
(70_reset_and_hazards.md R280, R281; 60_exceptions.md R252 to R255; 46_interfaces_and_log.md). -/

namespace Sys2Proof.Machine

/-- One level's part of legality, (b) and (c) of 45_cache_hierarchy.md R191. -/
def LevelConfig.legal (c : LevelConfig) : Bool :=
  decide (1 ≤ c.size) && decide (1 ≤ c.assoc) && decide (1 ≤ c.bsize) && c.size % (c.bsize * c.assoc) == 0

/-- The number of the first illegal level, counting from `k`. -/
def firstIllegal (k : Nat) : List LevelConfig → Option Nat
  | [] => none
  | c :: rest => if c.legal then firstIllegal (k + 1) rest else some k

/-- The level number a configuration error records, none for a legal configuration; 0 for a bad number of levels
(60_exceptions.md R252, R254). -/
def configErrorLevel (cfgs : List LevelConfig) : Option Nat :=
  if Config.maxLevels < cfgs.length then some 0 else firstIllegal 1 cfgs

/-- A level whose rows are all empty (10_state.md R38). -/
def emptyLevel (c : LevelConfig) : CacheLevel := { cfg := c, rows := List.replicate c.numRows [] }

/-- The configuration report from level `k` on (46_interfaces_and_log.md R235). -/
def configReport (k : Nat) : List LevelConfig → List Event
  | [] => []
  | c :: rest => .config k c.size c.assoc c.bsize c.numRows :: configReport (k + 1) rest

/-- Release of reset with an image and a configuration (70_reset_and_hazards.md R281): the checks in the order of
60_exceptions.md R254, then the reset values of 10_state.md R38, then the report. What the registers, memory and
cache hold after an error: log 7. -/
def resetRelease (image : List Word) (cfgs : List LevelConfig) : State :=
  if Config.memCells < image.length then { State.reset with run := .failed .imageError }
  else
    match configErrorLevel cfgs with
    | some level => { State.reset with mem := Memory.ofImage image, run := .failed (.configError level) }
    | none =>
      { State.reset with
        mem := Memory.ofImage image
        cache := cfgs.map emptyLevel
        events := configReport 1 cfgs }

/-- Assertion of reset at any time: no state survives and the core does nothing until the release
(70_reset_and_hazards.md R280). Log 5. -/
def assertReset (_ : State) : State := { State.reset with run := .inReset }

/-- The status outputs (46_interfaces_and_log.md R237). -/
structure Status where
  running : Bool
  halted : Bool
  cfgError : Option Nat
  imageError : Bool
  deriving DecidableEq, Repr

/-- The status the core shows (46_interfaces_and_log.md R237, 60_exceptions.md R252, R253). -/
def statusOf (s : State) : Status :=
  match s.run with
  | .running => ⟨true, false, none, false⟩
  | .halted => ⟨false, true, none, false⟩
  | .inReset => ⟨false, false, none, false⟩
  | .failed (.configError level) => ⟨false, false, some level, false⟩
  | .failed .imageError => ⟨false, false, none, true⟩

/-- The status code of the run in the source's software terms: 0 on halt, another number on a configuration error
(46_interfaces_and_log.md R237). The numbers the spec does not give are free values, log 8. -/
def exitCode (s : State) : Option Nat :=
  match s.run with
  | .running => none
  | .halted => some 0
  | .inReset => none
  | .failed (.configError _) => some (Config.configErrorStatusPred + 1)
  | .failed .imageError => some Config.imageErrorStatus

/-- The read-only observation of the whole state (46_interfaces_and_log.md R240). -/
structure DebugView where
  regs : Vector Word 8
  pc : Word
  mem : Memory
  run : RunState
  clk : Nat
  rows : List (List Row)
  deriving DecidableEq, Repr

/-- What the host sees when it looks (46_interfaces_and_log.md R240). -/
def debugView (s : State) : DebugView :=
  { regs := s.regs, pc := s.pc, mem := s.mem, run := s.run, clk := s.clk, rows := s.cache.map (·.rows) }

end Sys2Proof.Machine
end

