-- ==== Sys2Proof/Machine/Step.lean ====
section
/-! DEFINITION. One step of the core: fetch, decode, execute one instruction (40_instruction_cycle.md R110, R111). -/

namespace Sys2Proof.Machine

/-- While `Running`, fetch the word at `pc`, decode it and execute it; otherwise nothing is fetched
(40_instruction_cycle.md R119). -/
def step (s : State) : Host.Outcome State Fault Refusal :=
  match s.run with
  | .running => exec (decode (fetch s)) s
  | .halted => notRunning s
  | .inReset => notRunning s
  | .failed _ => notRunning s

/-- The state with this instruction in the cell the next step fetches from, and the core running. A program comes to
run by being loaded from outside before reset release (log 3). -/
def State.withFetchWord (s : State) (nbits w : Nat) : State :=
  { memWrite s s.pc.toNat (tableWord nbits w) with run := .running }

end Sys2Proof.Machine
end

