-- ==== Sys2Proof/Safety.lean ====
section
/-! DEFINITION. The invariant of the core, and the words the statements are written in: what an instruction leaves
alone, and what the spec says of rows and levels in its own terms. None of it is used by the machine. -/

namespace Sys2Proof.Machine

/-! ### Numbers of the spec (00_scope.md R13, R14) -/

/-- `u16(v)`: `v mod 65536` (00_scope.md R13). -/
def u16 (v : Int) : Word := BitVec.ofInt 16 v

/-- `sext_7(v)` as a number `0..65535` (00_scope.md R14). -/
def sextNum (v : Imm7) : Nat := if v.toNat < 64 then v.toNat else v.toNat + 0xFF80

/-! ### What an instruction leaves alone -/

/-- Register `d` gets `v`, register 0 reads 0, every other register keeps its value. -/
def WritesOnly (s t : State) (d : Reg) (v : Word) : Prop :=
  ∀ i : Reg, t.regs[i] = if i = 0 then 0 else if i = d then v else s.regs[i]

/-- Register 0 reads 0, every other register keeps its value. -/
def WritesNoRegister (s t : State) : Prop := ∀ i : Reg, t.regs[i] = if i = 0 then 0 else s.regs[i]

/-- Every cell of memory reads as before. -/
def SameMemory (s t : State) : Prop := ∀ a : Nat, Memory.read t.mem a = Memory.read s.mem a

/-- No cache state changes and no event is emitted. -/
def SameCache (s t : State) : Prop := t.cache = s.cache ∧ t.events = s.events

/-- The sequential advance (40_instruction_cycle.md R114). -/
def SequentialPc (s t : State) : Prop := t.pc.toNat = (s.pc.toNat + 1) % 8192

/-- One completed instruction that does not halt. -/
def Ticks (s t : State) : Prop := t.clk = s.clk + 1 ∧ t.run = s.run

/-- The register an instruction writes (10_state.md R23), apart from register 0 at its end. -/
def destOf : Instr → Option Reg
  | .add _ _ rC => some rC
  | .sub _ _ rC => some rC
  | .or _ _ rC => some rC
  | .and _ _ rC => some rC
  | .slt _ _ rC => some rC
  | .jr _ => none
  | .j _ => none
  | .jal _ => some 7
  | .addi _ rB _ => some rB
  | .lw _ rB _ => some rB
  | .sw _ _ _ => none
  | .jeq _ _ _ => none
  | .slti _ rB _ => some rB
  | .nopFunc0101 _ => none
  | .nopFunc0110 _ => none
  | .nopFunc0111 _ => none
  | .nopFunc1001 _ => none
  | .nopFunc1010 _ => none
  | .nopFunc1011 _ => none
  | .nopFunc1100 _ => none
  | .nopFunc1101 _ => none
  | .nopFunc1110 _ => none
  | .nopFunc1111 _ => none
  | .nopFunc1000Bit9 _ => none
  | .nopFunc1000Bit8 _ => none
  | .nopFunc1000Bit7 _ => none
  | .nopFunc1000Bit6 _ => none
  | .nopFunc1000Bit5 _ => none
  | .nopFunc1000Bit4 _ => none

/-- The effective address of a load or store with base `a` (44_load_store.md R180), as a number. -/
def eaNum (a : Word) (imm7 : Imm7) : Nat := (a.toNat + sextNum imm7) % 8192

/-! ### The cache in the spec's terms (45_cache_hierarchy.md R193 to R197) -/

/-- The row index of an address. -/
def rowOf (c : LevelConfig) (addr : Nat) : Nat := addr / c.bsize % (c.size / (c.bsize * c.assoc))

/-- The tag of an address. -/
def tagOf (c : LevelConfig) (addr : Nat) : Nat := addr / c.bsize / (c.size / (c.bsize * c.assoc))

/-- The address hits at the level (45_cache_hierarchy.md R196). -/
def Hits (lv : CacheLevel) (addr : Nat) : Prop := ∃ b ∈ lv.rows.getD (rowOf lv.cfg addr) [], b.tag = tagOf lv.cfg addr

/-- Way `v` holds the smallest recency of the row, and is the first way that does (45_cache_hierarchy.md R195). -/
def IsVictim (row : Row) (v : Nat) : Prop :=
  ∃ b, row[v]? = some b ∧ ∀ j c, row[j]? = some c → b.recency ≤ c.recency ∧ (j < v → b.recency < c.recency)

/-- (b) and (c) of a legal configuration, one level (45_cache_hierarchy.md R191). -/
def LegalLevel (c : LevelConfig) : Prop := 1 ≤ c.size ∧ 1 ≤ c.assoc ∧ 1 ≤ c.bsize ∧ c.size % (c.bsize * c.assoc) = 0

/-- A level whose configuration was accepted, with its number of rows (45_cache_hierarchy.md R191, 10_state.md R34). -/
def Shaped (lv : CacheLevel) : Prop := LegalLevel lv.cfg ∧ lv.rows.length = lv.cfg.size / (lv.cfg.bsize * lv.cfg.assoc)

/-- What an access makes of its row: a hit restamps the block in place, a miss takes a free way or the victim's. -/
def RowAfter (assoc tag clk : Nat) (old new : Row) : Prop :=
  (∃ way b, old[way]? = some b ∧ b.tag = tag ∧ new = old.set way ⟨tag, clk⟩) ∨
  ((∀ b ∈ old, b.tag ≠ tag) ∧ old.length ≠ assoc ∧ new = old ++ [⟨tag, clk⟩]) ∨
  ((∀ b ∈ old, b.tag ≠ tag) ∧ old.length = assoc ∧ ∃ v, IsVictim old v ∧ new = old.set v ⟨tag, clk⟩)

/-- What an access makes of its level: one row changes as `RowAfter` says. -/
def LevelAfter (addr clk : Nat) (old new : CacheLevel) : Prop :=
  new.cfg = old.cfg ∧ new.rows.length = old.rows.length ∧
  (∀ r, r ≠ rowOf old.cfg addr → new.rows.getD r [] = old.rows.getD r []) ∧
  RowAfter old.cfg.assoc (tagOf old.cfg addr) clk
    (old.rows.getD (rowOf old.cfg addr) []) (new.rows.getD (rowOf old.cfg addr) [])

/-! ### The invariant -/

/-- A level between instructions (10_state.md R35). The spec says `recency <= clk`; between instructions the stamps
are those of completed instructions, so they are below `clk`: DEDUCED, log 19. -/
structure CacheLevel.Inv (lv : CacheLevel) (clk : Nat) : Prop where
  /-- the configuration was accepted (45_cache_hierarchy.md R191) -/
  legal : lv.cfg.legal = true
  /-- 10_state.md R34 -/
  rowCount : lv.rows.length = lv.cfg.numRows
  /-- 10_state.md R35 (a) -/
  capacity : ∀ row ∈ lv.rows, row.length ≤ lv.cfg.assoc
  /-- 10_state.md R35 (b) -/
  tagsDistinct : ∀ row ∈ lv.rows, (row.map (·.tag)).Nodup
  /-- 10_state.md R35 (c) and (e): the first cell a block stands for is a cell of memory -/
  standsForCells : ∀ r, ∀ b ∈ lv.rows.getD r [], lv.cfg.bsize * (b.tag * lv.cfg.numRows + r) < 8192
  /-- 10_state.md R35 (d) -/
  stampsPast : ∀ row ∈ lv.rows, ∀ b ∈ row, b.recency < clk
  /-- 10_state.md R35 (d) -/
  stampsDistinct : (lv.rows.flatten.map (·.recency)).Nodup

/-- A state between instructions: register 0 reads 0 (10_state.md R22), `pc` is a cell (R25), memory is in its
canonical form, there are at most two levels (45_cache_hierarchy.md R191), and each is sound (10_state.md R35). -/
structure State.Inv (s : State) : Prop where
  reg0 : s.regs[(0 : Reg)] = 0
  pcRange : s.pc.toNat < 8192
  memWf : Memory.wf s.mem
  levelCount : s.cache.length ≤ 2
  levels : ∀ lv ∈ s.cache, lv.Inv s.clk

/-- A safe run: the invariant holds and no pre-run error was raised. The core has no other way to go wrong
(60_exceptions.md R250, R255). -/
def State.Safe (s : State) : Prop := s.Inv ∧ (∀ e, s.run ≠ .failed e)

/-- The states that differ at most in cache, clock and output (10_state.md R36). -/
def SameProgramView (s t : State) : Prop := s.regs = t.regs ∧ s.pc = t.pc ∧ s.mem = t.mem ∧ s.run = t.run

end Sys2Proof.Machine
end

