-- ==== Sys2Proof/Certificates/Slice0/Obligations.lean ====
section
/-! DEFINITION. The statements for the provers. Each docstring names the rule of spec/ it comes from; where a clause
rests on a decision of the spec or of the model, it names the log entry. -/

open Sys2Proof Sys2Proof.Machine

/-! ### Encoding -/

/-- Words written out from 30_encoding.md R102 and 95_test_vectors.md V1 to V9b and V22 to V25. Their numbers are the
spec's own decision (D5), log 10. -/
def Obligations.SpecWordsDecode : Prop :=
  decode 0x2085#16 = .addi 0 1 5#7 ∧ decode 0x24FF#16 = .addi 1 1 0b1111111#7 ∧ decode 0x08A0#16 = .add 2 1 2 ∧
  decode 0x1C08#16 = .jr 7 ∧ decode 0x4002#16 = .j 2#13 ∧ decode 0x6006#16 = .jal 6#13 ∧
  decode 0x8500#16 = .lw 1 2 0#7 ∧ decode 0xA194#16 = .sw 0 3 20#7 ∧ decode 0xC403#16 = .jeq 1 0 3#7 ∧
  decode 0xEDFF#16 = .slti 3 3 0b1111111#7 ∧ decode 0x0531#16 = .sub 1 2 3 ∧ decode 0x0562#16 = .or 1 2 6 ∧
  decode 0x0553#16 = .and 1 2 5 ∧ decode 0x08C4#16 = .slt 2 1 4 ∧ decode 0x0000#16 = .add 0 0 0 ∧
  decode 0x000F#16 = .nopFunc1111 0#9 ∧ decode 0x0005#16 = .nopFunc0101 0#9 ∧
  decode 0x1C18#16 = .nopFunc1000Bit4 0b111000001#9

/-- No bit of an encoding is dropped: a well-formed instruction's word decodes to it (30_encoding.md R81, R90, R95;
the numbers are log 10). -/
def Obligations.DecodeEncodeRoundTrip : Prop :=
  ∀ i : Instr, i.wellFormed = true → decode (encode i) = i

/-- Every word is one well-formed instruction and its encoding (30_encoding.md R92, R95; the numbers are log 10). -/
def Obligations.EncodeDecodeRoundTrip : Prop :=
  ∀ w : Word, (decode w).wellFormed = true ∧ encode (decode w) = w

/-- The 29 rows of opcode_table.json partition the words, and decoding names the word's row (30_encoding.md R92; the
numbers are log 10). -/
def Obligations.OpcodeRowsPartitionWords : Prop :=
  ∀ w : Word, (decode w).row ∈ opcodeRows ∧ w &&& (decode w).row.1 = (decode w).row.2 ∧
    ∀ r ∈ opcodeRows, w &&& r.1 = r.2 → r = (decode w).row

/-- `jr` is the words `ir AND 0xE3FF = 0x0008`, and with a non-zero bit in `ir[9:4]` the word is a no-operation
(30_encoding.md R89; D5 and D6, log 10). -/
def Obligations.JrNeedsZeroBits : Prop :=
  ∀ w : Word, ((∃ rA, decode w = .jr rA) ↔ w &&& 0xE3FF#16 = 0x0008#16) ∧
    (w.extractLsb' 13 3 = 0#3 → w.extractLsb' 0 4 = 8#4 → w.extractLsb' 4 6 ≠ 0#6 → (decode w).isNop = true)

/-- The no-operation space (30_encoding.md R91; the numbers are log 10). -/
def Obligations.NoOperationSpaceExact : Prop :=
  ∀ w : Word, (decode w).isNop = true ↔
    w.extractLsb' 13 3 = 0#3 ∧
      (w.extractLsb' 0 4 ∈ [5#4, 6#4, 7#4, 9#4, 10#4, 11#4, 12#4, 13#4, 14#4, 15#4] ∨
        w.extractLsb' 0 4 = 8#4 ∧ w.extractLsb' 4 6 ≠ 0#6)

/-! ### The step -/

/-- A running core executes the instruction decoded from the cell `pc mod 8192` (40_instruction_cycle.md R111, R112).
The second clause is about `withFetchWord`, which stands for the load of a program: the model's choice, log 3. -/
def Obligations.StepRunsDecodedInstruction : Prop :=
  (∀ s : State, s.run = .running → step s = exec (decode (Memory.read s.mem (s.pc.toNat % 8192))) s) ∧
  (∀ (s : State) (w : Word), step (s.withFetchWord 16 w.toNat) = exec (decode w) (s.withFetchWord 16 w.toNat))

/-- 40_instruction_cycle.md R121 for a running core. The clauses on faults, on refusals and on pre-run errors also speak
of cores that do not run, for which the spec has no step (R119, 60_exceptions.md R255): what such a step answers is the
model's choice, log 6. -/
def Obligations.RunningStepAlwaysCompletes : Prop :=
  (∀ s : State, s.run = .running → ∃ t, step s = .next t) ∧
  (∀ (s : State) (f : Fault), step s = .fault f → ∃ e, s.run = .failed e) ∧
  (∀ (s : State) (r : Refusal), step s ≠ .refused r) ∧
  (∀ (s t : State) (e : LaunchError), step s = .next t → t.run ≠ .failed e)

/-- While `Halted`, or held in reset, any number of steps changes nothing (40_instruction_cycle.md R119,
46_interfaces_and_log.md R230). That such a step answers the same state is the model's choice, log 6. -/
def Obligations.StoppedCoreNeverChanges : Prop :=
  ∀ (k : Nat) (s : State), s.run = .halted ∨ s.run = .inReset → core.run k s = .next s

/-- A refused launch has no execution (60_exceptions.md R255); the model's step names the error, log 6. -/
def Obligations.RefusedLaunchStopsByName : Prop :=
  ∀ s : State, (∀ k, s.run = .failed (.configError k) → step s = .fault (.configError k)) ∧
    (s.run = .failed .imageError → step s = .fault .imageError)

/-- 42_control_transfer.md R155: only a self-jump `j` halts, the halting `j` completes with the common end of an
instruction, and nothing is executed after it. That the halting `j` ticks is the spec's decision (D10), log 12; that a
step of the halted core answers the same state is the model's choice, log 6. -/
def Obligations.OnlySelfJumpHalts : Prop :=
  ∀ s t : State, s.run = .running → step s = .next t →
    (t.run = .halted ↔
      ∃ imm13, decode (Memory.read s.mem (s.pc.toNat % 8192)) = .j imm13 ∧ imm13.toNat = s.pc.toNat) ∧
    (t.run ≠ .halted → t.run = .running) ∧
    (t.run = .halted → t.pc = s.pc ∧ WritesNoRegister s t ∧ t.clk = s.clk + 1 ∧ step t = .next t)

/-- After `k` steps that leave the core running the clock has advanced by `k` (40_instruction_cycle.md R116; that every
instruction ticks, no-operations among them, is log 12). -/
def Obligations.ClockCountsInstructions : Prop :=
  ∀ (k : Nat) (s t : State), core.run k s = .next t → t.run = .running →
    s.run = .running ∧ t.clk = s.clk + k

/-- A store into the cell of the next instruction is what executes next (20_memory.md R63, a derived rule). -/
def Obligations.StoredWordExecutesNext : Prop :=
  ∀ (s : State) (rA rB : Reg) (imm7 : Imm7), s.run = .running →
    decode (Memory.read s.mem (s.pc.toNat % 8192)) = .sw rA rB imm7 →
    eaNum s.regs[rA] imm7 = (s.pc.toNat + 1) % 8192 →
    ∃ t, step s = .next t ∧ step t = exec (decode s.regs[rB]) t

/-- 20_memory.md R64: a fetch makes no cache access and emits nothing; what a step does to the cache and the output is
what its `lw` or `sw` does. -/
def Obligations.FetchBypassesCache : Prop :=
  ∀ (s : State), s.run = .running →
    ∃ t, step s = .next t ∧
      ((∀ rA rB imm7, decode (Memory.read s.mem (s.pc.toNat % 8192)) ≠ .lw rA rB imm7 ∧
          decode (Memory.read s.mem (s.pc.toNat % 8192)) ≠ .sw rA rB imm7) → SameCache s t) ∧
      exec (decode (Memory.read s.mem (s.pc.toNat % 8192))) s = .next t

/-- Only the destination register of 10_state.md R23 changes, only `sw` changes memory, and only at its address
(20_memory.md R51, R52). -/
def Obligations.StepChangesOnlyDestination : Prop :=
  ∀ s t : State, s.run = .running → step s = .next t →
    t.regs[(0 : Reg)] = 0 ∧
    (∀ i : Reg, i ≠ 0 → t.regs[i] ≠ s.regs[i] →
      destOf (decode (Memory.read s.mem (s.pc.toNat % 8192))) = some i) ∧
    (∀ a : Nat, Memory.read t.mem a ≠ Memory.read s.mem a →
      ∃ rA rB imm7, decode (Memory.read s.mem (s.pc.toNat % 8192)) = .sw rA rB imm7 ∧ a = eaNum s.regs[rA] imm7)

/-! ### Register-register instructions -/

/-- 41_register_alu.md R131. -/
def Obligations.AddResult : Prop :=
  ∀ (rA rB rC : Reg) (s : State), ∃ t, exec (.add rA rB rC) s = .next t ∧
    WritesOnly s t rC (u16 ((s.regs[rA].toNat : Int) + s.regs[rB].toNat)) ∧
    SequentialPc s t ∧ Ticks s t ∧ SameMemory s t ∧ SameCache s t

/-- 41_register_alu.md R132. -/
def Obligations.SubResult : Prop :=
  ∀ (rA rB rC : Reg) (s : State), ∃ t, exec (.sub rA rB rC) s = .next t ∧
    WritesOnly s t rC (u16 ((s.regs[rA].toNat : Int) - s.regs[rB].toNat)) ∧
    SequentialPc s t ∧ Ticks s t ∧ SameMemory s t ∧ SameCache s t

/-- 41_register_alu.md R133: bit `n` of the result is the OR of the bits `n`. -/
def Obligations.OrResult : Prop :=
  ∀ (rA rB rC : Reg) (s : State), ∃ t v, exec (.or rA rB rC) s = .next t ∧ WritesOnly s t rC v ∧
    (∀ n, v.getLsbD n = (s.regs[rA].getLsbD n || s.regs[rB].getLsbD n)) ∧
    SequentialPc s t ∧ Ticks s t ∧ SameMemory s t ∧ SameCache s t

/-- 41_register_alu.md R134: bit `n` of the result is the AND of the bits `n`. -/
def Obligations.AndResult : Prop :=
  ∀ (rA rB rC : Reg) (s : State), ∃ t v, exec (.and rA rB rC) s = .next t ∧ WritesOnly s t rC v ∧
    (∀ n, v.getLsbD n = (s.regs[rA].getLsbD n && s.regs[rB].getLsbD n)) ∧
    SequentialPc s t ∧ Ticks s t ∧ SameMemory s t ∧ SameCache s t

/-- 41_register_alu.md R135, unsigned. -/
def Obligations.SltResult : Prop :=
  ∀ (rA rB rC : Reg) (s : State), ∃ t, exec (.slt rA rB rC) s = .next t ∧
    WritesOnly s t rC (if s.regs[rA].toNat < s.regs[rB].toNat then 1 else 0) ∧
    SequentialPc s t ∧ Ticks s t ∧ SameMemory s t ∧ SameCache s t

/-- 41_register_alu.md R136, all sixteen rows of the no-operation space. That the clock ticks is the spec's decision
(D7), log 12. -/
def Obligations.NoOperationResult : Prop :=
  ∀ (ign : Ignored) (s : State),
    ∀ i ∈ [Instr.nopFunc0101 ign, .nopFunc0110 ign, .nopFunc0111 ign, .nopFunc1001 ign, .nopFunc1010 ign,
        .nopFunc1011 ign, .nopFunc1100 ign, .nopFunc1101 ign, .nopFunc1110 ign, .nopFunc1111 ign,
        .nopFunc1000Bit9 ign, .nopFunc1000Bit8 ign, .nopFunc1000Bit7 ign, .nopFunc1000Bit6 ign,
        .nopFunc1000Bit5 ign, .nopFunc1000Bit4 ign],
      ∃ t, exec i s = .next t ∧ WritesNoRegister s t ∧ SequentialPc s t ∧ Ticks s t ∧ SameMemory s t ∧ SameCache s t

/-! ### Control transfer -/

/-- 42_control_transfer.md R151; that the target is reduced modulo 8192 is the spec's decision (D4), log 9. -/
def Obligations.JrResult : Prop :=
  ∀ (rA : Reg) (s : State), ∃ t, exec (.jr rA) s = .next t ∧ t.pc.toNat = s.regs[rA].toNat % 8192 ∧
    WritesNoRegister s t ∧ Ticks s t ∧ SameMemory s t ∧ SameCache s t

/-- 42_control_transfer.md R152; that the halting `j` ticks is the spec's decision (D10), log 12. -/
def Obligations.JumpResult : Prop :=
  ∀ (imm13 : Imm13) (s : State), ∃ t, exec (.j imm13) s = .next t ∧ t.pc.toNat = imm13.toNat ∧
    (imm13.toNat = s.pc.toNat → t.run = .halted) ∧ (imm13.toNat ≠ s.pc.toNat → t.run = s.run) ∧
    t.clk = s.clk + 1 ∧ WritesNoRegister s t ∧ SameMemory s t ∧ SameCache s t

/-- 42_control_transfer.md R153; that the link is not reduced modulo 8192 is the spec's decision (D3), log 11. -/
def Obligations.JalResult : Prop :=
  ∀ (imm13 : Imm13) (s : State), ∃ t, exec (.jal imm13) s = .next t ∧ t.pc.toNat = imm13.toNat ∧
    WritesOnly s t 7 (u16 ((s.pc.toNat : Int) + 1)) ∧ Ticks s t ∧ SameMemory s t ∧ SameCache s t

/-- 42_control_transfer.md R154; the plus 1 of a taken branch is the spec's decision (D2), log 11. -/
def Obligations.JeqResult : Prop :=
  ∀ (rA rB : Reg) (imm7 : Imm7) (s : State), ∃ t, exec (.jeq rA rB imm7) s = .next t ∧
    (s.regs[rA] = s.regs[rB] → t.pc.toNat = (s.pc.toNat + 1 + sextNum imm7) % 8192) ∧
    (s.regs[rA] ≠ s.regs[rB] → SequentialPc s t) ∧
    WritesNoRegister s t ∧ Ticks s t ∧ SameMemory s t ∧ SameCache s t

/-! ### Register-immediate instructions -/

/-- 43_immediate_alu.md R171. -/
def Obligations.AddiResult : Prop :=
  ∀ (rA rB : Reg) (imm7 : Imm7) (s : State), ∃ t, exec (.addi rA rB imm7) s = .next t ∧
    WritesOnly s t rB (u16 ((s.regs[rA].toNat : Int) + sextNum imm7)) ∧
    SequentialPc s t ∧ Ticks s t ∧ SameMemory s t ∧ SameCache s t

/-- 43_immediate_alu.md R172, unsigned against the sign-extended immediate. -/
def Obligations.SltiResult : Prop :=
  ∀ (rA rB : Reg) (imm7 : Imm7) (s : State), ∃ t, exec (.slti rA rB imm7) s = .next t ∧
    WritesOnly s t rB (if s.regs[rA].toNat < sextNum imm7 then 1 else 0) ∧
    SequentialPc s t ∧ Ticks s t ∧ SameMemory s t ∧ SameCache s t

/-! ### Loads and stores -/

/-- 44_load_store.md R180, R181: the register file, memory, `pc` and clock of `lw`. The cache and the output are
`LoadProbeWalk`. -/
def Obligations.LoadResult : Prop :=
  ∀ (rA rB : Reg) (imm7 : Imm7) (s : State), ∃ t, exec (.lw rA rB imm7) s = .next t ∧
    WritesOnly s t rB (Memory.read s.mem (eaNum s.regs[rA] imm7)) ∧
    SequentialPc s t ∧ Ticks s t ∧ SameMemory s t

/-- 44_load_store.md R180, R182: the register file, memory, `pc` and clock of `sw`. The cache and the output are
`StoreProbeWalk`. -/
def Obligations.StoreResult : Prop :=
  ∀ (rA rB : Reg) (imm7 : Imm7) (s : State), ∃ t, exec (.sw rA rB imm7) s = .next t ∧
    Memory.read t.mem (eaNum s.regs[rA] imm7) = s.regs[rB] ∧
    (∀ a, a ≠ eaNum s.regs[rA] imm7 → Memory.read t.mem a = Memory.read s.mem a) ∧
    WritesNoRegister s t ∧ SequentialPc s t ∧ Ticks s t

/-- The read probe of `lw` (45_cache_hierarchy.md R200): it stops at the first hit, and each visited level has one
access. Where a new block goes is the spec's decision (D13), log 15; which `pc` and address an event carries, log 16. -/
def Obligations.LoadProbeWalk : Prop :=
  ∀ (rA rB : Reg) (imm7 : Imm7) (s : State) (ea : Nat), ea = eaNum s.regs[rA] imm7 → (∀ lv ∈ s.cache, Shaped lv) →
    ∃ t, exec (.lw rA rB imm7) s = .next t ∧
      (s.cache = [] → t.cache = [] ∧ t.events = s.events) ∧
      (∀ l1, s.cache = [l1] → ∃ m1, LevelAfter ea s.clk l1 m1 ∧ t.cache = [m1] ∧
        (Hits l1 ea → t.events = s.events ++ [.access 1 .hit s.pc ea (rowOf l1.cfg ea)]) ∧
        (¬ Hits l1 ea → t.events = s.events ++ [.access 1 .miss s.pc ea (rowOf l1.cfg ea)])) ∧
      (∀ l1 l2, s.cache = [l1, l2] → ∃ m1 m2, LevelAfter ea s.clk l1 m1 ∧
        LevelAfter ea s.clk l2 m2 ∧
        (Hits l1 ea → t.cache = [m1, l2] ∧ t.events = s.events ++ [.access 1 .hit s.pc ea (rowOf l1.cfg ea)]) ∧
        (¬ Hits l1 ea → Hits l2 ea → t.cache = [m1, m2] ∧
          t.events = s.events ++ [.access 1 .miss s.pc ea (rowOf l1.cfg ea),
             .access 2 .hit s.pc ea (rowOf l2.cfg ea)]) ∧
        (¬ Hits l1 ea → ¬ Hits l2 ea → t.cache = [m1, m2] ∧
          t.events = s.events ++ [.access 1 .miss s.pc ea (rowOf l1.cfg ea),
             .access 2 .miss s.pc ea (rowOf l2.cfg ea)]))

/-- The write probe of `sw` (45_cache_hierarchy.md R205): every level has one access and one `SW` event, whether it
hits or not. Where a new block goes is the spec's decision (D13), log 15; which `pc` and address an event carries,
log 16. -/
def Obligations.StoreProbeWalk : Prop :=
  ∀ (rA rB : Reg) (imm7 : Imm7) (s : State) (ea : Nat), ea = eaNum s.regs[rA] imm7 → (∀ lv ∈ s.cache, Shaped lv) →
    ∃ t, exec (.sw rA rB imm7) s = .next t ∧
      (s.cache = [] → t.cache = [] ∧ t.events = s.events) ∧
      (∀ l1, s.cache = [l1] → ∃ m1, LevelAfter ea s.clk l1 m1 ∧ t.cache = [m1] ∧
        t.events = s.events ++ [.access 1 .sw s.pc ea (rowOf l1.cfg ea)]) ∧
      (∀ l1 l2, s.cache = [l1, l2] → ∃ m1 m2, LevelAfter ea s.clk l1 m1 ∧
        LevelAfter ea s.clk l2 m2 ∧ t.cache = [m1, m2] ∧
        t.events = s.events ++ [.access 1 .sw s.pc ea (rowOf l1.cfg ea),
           .access 2 .sw s.pc ea (rowOf l2.cfg ea)])

/-- 45_cache_hierarchy.md R207. -/
def Obligations.NoLevelsNoProbe : Prop :=
  ∀ (s : State) (addr : Nat), s.cache = [] → readProbe s addr = s ∧ writeProbe s addr = s ∧
    ∀ (rA rB : Reg) (imm7 : Imm7), (∃ t, exec (.lw rA rB imm7) s = .next t ∧ SameCache s t) ∧
      (∃ t, exec (.sw rA rB imm7) s = .next t ∧ SameCache s t)

/-! ### Operands and memory -/

/-- 00_scope.md R14. -/
def Obligations.ExtensionValues : Prop :=
  (∀ v : Imm7, (v.getLsbD 6 = false → (sext7 v).toNat = v.toNat) ∧
    (v.getLsbD 6 = true → (sext7 v).toNat = v.toNat + 0xFF80) ∧
    ((sext7 v).toInt = if v.toNat < 64 then (v.toNat : Int) else (v.toNat : Int) - 128)) ∧
  (∀ v : Imm13, (zext13 v).toNat = v.toNat ∧ v.toNat < 8192)

/-- 20_memory.md R52: every index is reduced modulo 8192, for fetch, loads and stores, and a write changes one cell. -/
def Obligations.CellsModulo8192 : Prop :=
  (∀ (s : State) (v : Nat), memRead s v = Memory.read s.mem (v % 8192)) ∧
  (∀ (s : State) (v a : Nat) (x : Word),
    Memory.read (memWrite s v x).mem a = if a = v % 8192 then x else Memory.read s.mem a) ∧
  (∀ s : State, fetch s = Memory.read s.mem (s.pc.toNat % 8192)) ∧
  (∀ (a : Word) (imm7 : Imm7), effectiveAddr a imm7 = (a.toNat + sextNum imm7) % 8192) ∧
  (∀ (rA rB : Reg) (imm7 : Imm7) (s : State), ∃ t u, exec (.lw rA rB imm7) s = .next t ∧
    exec (.sw rA rB imm7) s = .next u ∧
    (rB ≠ 0 → t.regs[rB] = Memory.read s.mem (effectiveAddr s.regs[rA] imm7)) ∧
    Memory.read u.mem (effectiveAddr s.regs[rA] imm7) = s.regs[rB])

/-! ### The cache controller -/

/-- 45_cache_hierarchy.md R193; that sizes count cells is the spec's decision (D12), log 14. -/
def Obligations.AddressDecomposition : Prop :=
  (∀ (c : LevelConfig) (addr : Nat), LegalLevel c → addr < 8192 →
    decompose c addr = (addr / c.bsize % (c.size / (c.bsize * c.assoc)), addr / c.bsize / (c.size / (c.bsize * c.assoc))) ∧
    (decompose c addr).1 < c.size / (c.bsize * c.assoc) ∧ (decompose c addr).2 ≤ 8191 ∧
    addr / c.bsize = (decompose c addr).2 * (c.size / (c.bsize * c.assoc)) + (decompose c addr).1) ∧
  (∀ (c : LevelConfig) (a b : Nat), LegalLevel c → a < 8192 → b < 8192 →
    (decompose c a = decompose c b ↔ a / c.bsize = b / c.bsize)) ∧
  decompose ⟨64, 2, 8⟩ 100 = (0, 3) ∧ decompose ⟨64, 2, 8⟩ 103 = (0, 3) ∧ decompose ⟨64, 2, 8⟩ 104 = (1, 3)

/-- 45_cache_hierarchy.md R195, on a row whose tags are pairwise different (10_state.md R35 (b)). -/
def Obligations.ScanFindsTagOrVictim : Prop :=
  ∀ (blocks : Row) (tag : Nat), (blocks.map (·.tag)).Nodup →
    (∀ i b, blocks[i]? = some b → b.tag = tag → scan blocks tag = .hit i) ∧
    ((∀ b ∈ blocks, b.tag ≠ tag) → blocks = [] → scan blocks tag = .miss none) ∧
    ((∀ b ∈ blocks, b.tag ≠ tag) → blocks ≠ [] → ∃ v, scan blocks tag = .miss (some v) ∧ IsVictim blocks v)

/-- 45_cache_hierarchy.md R196: what a hit is, and that a hit restamps its block and changes nothing else. -/
def Obligations.HitRestampsInPlace : Prop :=
  ∀ (lv : CacheLevel) (addr clk : Nat), Shaped lv →
    ((access lv addr clk).hit = true ↔
      ∃ b ∈ lv.rows.getD (rowOf lv.cfg addr) [], b.tag = tagOf lv.cfg addr) ∧
    (lv.rows.getD (rowOf lv.cfg addr) [] = [] → (access lv addr clk).hit = false) ∧
    ((access lv addr clk).hit = true → (access lv addr clk).level.cfg = lv.cfg ∧
      (∀ r, r ≠ rowOf lv.cfg addr → (access lv addr clk).level.rows.getD r [] = lv.rows.getD r []) ∧
      ∃ way b, (lv.rows.getD (rowOf lv.cfg addr) [])[way]? = some b ∧ b.tag = tagOf lv.cfg addr ∧
        (access lv addr clk).level.rows.getD (rowOf lv.cfg addr) [] =
          (lv.rows.getD (rowOf lv.cfg addr) []).set way ⟨b.tag, clk⟩)

/-- 45_cache_hierarchy.md R197: an access takes a free way, or the least recently used way of a full row; which free
way, and that the victim is replaced in place, is the spec's decision (D13), log 15. -/
def Obligations.MissAllocatesOrEvicts : Prop :=
  ∀ (lv : CacheLevel) (addr clk : Nat), Shaped lv →
    LevelAfter addr clk lv (access lv addr clk).level ∧ Hits (access lv addr clk).level addr ∧
    (¬ Hits lv addr → (lv.rows.getD (rowOf lv.cfg addr) []).length = lv.cfg.assoc →
      ∃ v, IsVictim (lv.rows.getD (rowOf lv.cfg addr) []) v ∧
        (access lv addr clk).level.rows.getD (rowOf lv.cfg addr) [] =
          (lv.rows.getD (rowOf lv.cfg addr) []).set v ⟨tagOf lv.cfg addr, clk⟩)

/-- 45_cache_hierarchy.md R210 (a): with two ways, the accesses A, B, A, C evict B and keep A. -/
def Obligations.LruEvictsLeastRecentlyUsed : Prop :=
  ∀ (lv : CacheLevel) (clk a b c : Nat), lv.Inv clk → lv.cfg.assoc = 2 → a < 8192 → b < 8192 → c < 8192 →
    rowOf lv.cfg b = rowOf lv.cfg a → rowOf lv.cfg c = rowOf lv.cfg a → tagOf lv.cfg a ≠ tagOf lv.cfg b →
    tagOf lv.cfg c ≠ tagOf lv.cfg a → tagOf lv.cfg c ≠ tagOf lv.cfg b →
    ∀ l1 l2 l3 l4, (access lv a clk).level = l1 → (access l1 b (clk + 1)).level = l2 →
      (access l2 a (clk + 2)).level = l3 → (access l3 c (clk + 3)).level = l4 →
      Hits l2 a ∧ Hits l2 b ∧ ¬ Hits l3 c ∧ Hits l4 a ∧ Hits l4 c ∧ ¬ Hits l4 b

/-- 45_cache_hierarchy.md R210 (b): with one way, two addresses of one row and different tags always miss. -/
def Obligations.DirectMappedAlternationMisses : Prop :=
  ∀ (lv : CacheLevel) (clk a b : Nat), lv.Inv clk → lv.cfg.assoc = 1 → a < 8192 → b < 8192 →
    rowOf lv.cfg b = rowOf lv.cfg a → tagOf lv.cfg a ≠ tagOf lv.cfg b →
    ¬ Hits (access lv a clk).level b ∧
    ¬ Hits (access (access lv a clk).level b (clk + 1)).level a

/-- 46_interfaces_and_log.md R232: nothing is output before the release of reset, the output only grows at its end, and
the events of one access are in strictly increasing level order. That each event carries the `pc` of its `lw` or `sw` is
the spec's decision (D19, 46_interfaces_and_log.md R233), log 16. -/
def Obligations.OutputOnlyGrows : Prop :=
  (∀ s : State, (assertReset s).events = []) ∧
  (∀ s t : State, step s = .next t →
    ∃ es, t.events = s.events ++ es ∧ es.length ≤ s.cache.length ∧
      ∀ i e, es[i]? = some e → ∃ kind addr row, e = Event.access (i + 1) kind s.pc addr row)

/-! ### Invariants -/

/-- The state after reset is sound (its cache and image are the model's choice, log 3). -/
def Obligations.ResetStateSound : Prop := State.reset.Safe

/-- A launch with an image that fits and a legal configuration is sound and runs (70_reset_and_hazards.md R281). Which
parameters are legal is the spec's decision (D11), log 14. -/
def Obligations.LaunchedStateSound : Prop :=
  ∀ (image : List Word) (cfgs : List LevelConfig), image.length ≤ 8192 → cfgs.length ≤ 2 →
    (∀ c ∈ cfgs, LegalLevel c) → (resetRelease image cfgs).Inv ∧ (resetRelease image cfgs).run = .running

/-- Every step keeps the invariant: register 0 reads 0, `pc` is a cell, memory is canonical, and 10_state.md R35 holds
of every level (a derived rule; the strict bound on stamps is log 19). -/
def Obligations.StepKeepsInvariant : Prop :=
  ∀ s t : State, s.Inv → step s = .next t → t.Inv

/-- No step changes the configuration of the cache (10_state.md R31). -/
def Obligations.StepKeepsConfiguration : Prop :=
  ∀ s t : State, step s = .next t → t.cache.map (·.cfg) = s.cache.map (·.cfg)

/-- 10_state.md R36: what a program computes never depends on the cache, the clock or the output. Steps of
a core that no longer runs are among the `k`: they answer the same state, the model's choice, log 6. -/
def Obligations.CacheNeverChangesResults : Prop :=
  ∀ (k : Nat) (s₁ s₂ t₁ : State), SameProgramView s₁ s₂ → core.run k s₁ = .next t₁ →
    ∃ t₂, core.run k s₂ = .next t₂ ∧ SameProgramView t₁ t₂

/-! ### Launch and status -/

/-- 45_cache_hierarchy.md R191: a launch is accepted exactly for a legal configuration and an image that fits. That a
zero parameter is illegal is the spec's decision (D11), log 14. -/
def Obligations.LaunchAcceptedIffLegal : Prop :=
  ∀ (image : List Word) (cfgs : List LevelConfig), (resetRelease image cfgs).run = .running ↔
    image.length ≤ 8192 ∧ cfgs.length ≤ 2 ∧ ∀ c ∈ cfgs, LegalLevel c

/-- 60_exceptions.md R252 to R255: which error a refused launch raises, and that it executes nothing. The order of the
checks is the spec's decision (D17), log 7; that a zero parameter is illegal is its decision D11, log 14; that a step of
a refused launch answers a fault is the model's choice, log 6. Nothing is claimed of the state such a launch keeps (U4,
U14). -/
def Obligations.RefusedLaunchNamesFirstError : Prop :=
  ∀ (image : List Word) (cfgs : List LevelConfig),
    (8192 < image.length → (resetRelease image cfgs).run = .failed .imageError) ∧
    (image.length ≤ 8192 → 2 < cfgs.length → (resetRelease image cfgs).run = .failed (.configError 0)) ∧
    (image.length ≤ 8192 → cfgs.length ≤ 2 → ∀ k c, cfgs[k]? = some c → ¬ LegalLevel c →
      (∀ j d, j < k → cfgs[j]? = some d → LegalLevel d) →
      (resetRelease image cfgs).run = .failed (.configError (k + 1))) ∧
    (∀ e, (resetRelease image cfgs).run = .failed e → ∃ f, step (resetRelease image cfgs) = .fault f)

/-- 10_state.md R38: every piece of state when reset is released with an image that fits and a legal configuration. That
a cell the image does not name holds 0 is presumed, log 2; that the configuration report is emitted at the release is the
spec's decision (D25), log 17; which parameters are legal is its decision D11, log 14. -/
def Obligations.ReleaseGivesResetValues : Prop :=
  ∀ (image : List Word) (cfgs : List LevelConfig), image.length ≤ 8192 → cfgs.length ≤ 2 →
    (∀ c ∈ cfgs, LegalLevel c) →
    (∀ i : Reg, (resetRelease image cfgs).regs[i] = 0) ∧ (resetRelease image cfgs).pc = 0 ∧
    (resetRelease image cfgs).run = .running ∧ (resetRelease image cfgs).clk = 0 ∧
    (∀ a < 8192, Memory.read (resetRelease image cfgs).mem a = image.getD a 0) ∧
    (resetRelease image cfgs).cache.map (·.cfg) = cfgs ∧
    (∀ lv ∈ (resetRelease image cfgs).cache, lv.rows.length = lv.cfg.size / (lv.cfg.bsize * lv.cfg.assoc) ∧
      ∀ row ∈ lv.rows, row = []) ∧
    (resetRelease image cfgs).events.length = cfgs.length ∧
    (∀ k c, cfgs[k]? = some c → (resetRelease image cfgs).events[k]? =
      some (Event.config (k + 1) c.size c.assoc c.bsize (c.size / (c.bsize * c.assoc))))

/-- 70_reset_and_hazards.md R280: asserting reset forgets every earlier state and error, and a core held in reset does
nothing (46_interfaces_and_log.md R230). The form of the state is the model's choice, log 5, and so is that a step of it
answers the same state, log 6. -/
def Obligations.ResetForgetsEverything : Prop :=
  ∀ s s' : State, assertReset s = assertReset s' ∧ step (assertReset s) = .next (assertReset s) ∧
    statusOf (assertReset s) = ⟨false, false, none, false⟩

/-- 46_interfaces_and_log.md R237: the status outputs, success on `Halted` and failure on a configuration error. The
failing number is a free value, and that a running core has no status code yet is the model's choice: both log 8. -/
def Obligations.StatusFollowsRunState : Prop :=
  ∀ s : State, ((statusOf s).running = true ↔ s.run = .running) ∧ ((statusOf s).halted = true ↔ s.run = .halted) ∧
    (∀ k, (statusOf s).cfgError = some k ↔ s.run = .failed (.configError k)) ∧
    ((statusOf s).imageError = true ↔ s.run = .failed .imageError) ∧
    (s.run = .halted → exitCode s = some 0) ∧
    (∀ k, s.run = .failed (.configError k) → ∃ n, exitCode s = some n ∧ n ≠ 0) ∧
    (s.run = .running → exitCode s = none)
end

