-- ==== Sys2Proof/Laws/State.lean ====
section
/-! SUPPORT. One lemma per field per update of State, true by rfl, so that no later proof unfolds a record update. -/

namespace Sys2Proof.Machine

variable (s : State)

@[simp] theorem writeReg_regs (i : Reg) (v : Word) : (writeReg s i v).regs = s.regs.set i v := rfl
@[simp] theorem writeReg_pc (i : Reg) (v : Word) : (writeReg s i v).pc = s.pc := rfl
@[simp] theorem writeReg_mem (i : Reg) (v : Word) : (writeReg s i v).mem = s.mem := rfl
@[simp] theorem writeReg_run (i : Reg) (v : Word) : (writeReg s i v).run = s.run := rfl
@[simp] theorem writeReg_clk (i : Reg) (v : Word) : (writeReg s i v).clk = s.clk := rfl
@[simp] theorem writeReg_cache (i : Reg) (v : Word) : (writeReg s i v).cache = s.cache := rfl
@[simp] theorem writeReg_events (i : Reg) (v : Word) : (writeReg s i v).events = s.events := rfl

@[simp] theorem memWrite_regs (a : Nat) (v : Word) : (memWrite s a v).regs = s.regs := rfl
@[simp] theorem memWrite_pc (a : Nat) (v : Word) : (memWrite s a v).pc = s.pc := rfl
@[simp] theorem memWrite_mem (a : Nat) (v : Word) : (memWrite s a v).mem = Memory.write s.mem (cellIndex a) v := rfl
@[simp] theorem memWrite_run (a : Nat) (v : Word) : (memWrite s a v).run = s.run := rfl
@[simp] theorem memWrite_clk (a : Nat) (v : Word) : (memWrite s a v).clk = s.clk := rfl
@[simp] theorem memWrite_cache (a : Nat) (v : Word) : (memWrite s a v).cache = s.cache := rfl
@[simp] theorem memWrite_events (a : Nat) (v : Word) : (memWrite s a v).events = s.events := rfl

@[simp] theorem emit_regs (es : List Event) : (emit s es).regs = s.regs := rfl
@[simp] theorem emit_pc (es : List Event) : (emit s es).pc = s.pc := rfl
@[simp] theorem emit_mem (es : List Event) : (emit s es).mem = s.mem := rfl
@[simp] theorem emit_run (es : List Event) : (emit s es).run = s.run := rfl
@[simp] theorem emit_clk (es : List Event) : (emit s es).clk = s.clk := rfl
@[simp] theorem emit_cache (es : List Event) : (emit s es).cache = s.cache := rfl
@[simp] theorem emit_events (es : List Event) : (emit s es).events = s.events ++ es := rfl

@[simp] theorem readProbe_regs (a : Nat) : (readProbe s a).regs = s.regs := rfl
@[simp] theorem readProbe_pc (a : Nat) : (readProbe s a).pc = s.pc := rfl
@[simp] theorem readProbe_mem (a : Nat) : (readProbe s a).mem = s.mem := rfl
@[simp] theorem readProbe_run (a : Nat) : (readProbe s a).run = s.run := rfl
@[simp] theorem readProbe_clk (a : Nat) : (readProbe s a).clk = s.clk := rfl
@[simp] theorem readProbe_cache (a : Nat) : (readProbe s a).cache = (readWalk 1 s.cache a s.clk s.pc).levels := rfl
@[simp] theorem readProbe_events (a : Nat) :
    (readProbe s a).events = s.events ++ (readWalk 1 s.cache a s.clk s.pc).events := rfl

@[simp] theorem writeProbe_regs (a : Nat) : (writeProbe s a).regs = s.regs := rfl
@[simp] theorem writeProbe_pc (a : Nat) : (writeProbe s a).pc = s.pc := rfl
@[simp] theorem writeProbe_mem (a : Nat) : (writeProbe s a).mem = s.mem := rfl
@[simp] theorem writeProbe_run (a : Nat) : (writeProbe s a).run = s.run := rfl
@[simp] theorem writeProbe_clk (a : Nat) : (writeProbe s a).clk = s.clk := rfl
@[simp] theorem writeProbe_cache (a : Nat) : (writeProbe s a).cache = (writeWalk 1 s.cache a s.clk s.pc).levels := rfl
@[simp] theorem writeProbe_events (a : Nat) :
    (writeProbe s a).events = s.events ++ (writeWalk 1 s.cache a s.clk s.pc).events := rfl

@[simp] theorem retire_regs (npc : Word) (halt : Bool) : (retire s npc halt).regs = s.regs.set 0 0 := rfl
@[simp] theorem retire_pc (npc : Word) (halt : Bool) : (retire s npc halt).pc = npc := rfl
@[simp] theorem retire_mem (npc : Word) (halt : Bool) : (retire s npc halt).mem = s.mem := rfl
@[simp] theorem retire_run (npc : Word) (halt : Bool) :
    (retire s npc halt).run = if halt then .halted else s.run := rfl
@[simp] theorem retire_clk (npc : Word) (halt : Bool) : (retire s npc halt).clk = s.clk + 1 := rfl
@[simp] theorem retire_cache (npc : Word) (halt : Bool) : (retire s npc halt).cache = s.cache := rfl
@[simp] theorem retire_events (npc : Word) (halt : Bool) : (retire s npc halt).events = s.events := rfl

@[simp] theorem withFetchWord_regs (n w : Nat) : (s.withFetchWord n w).regs = s.regs := rfl
@[simp] theorem withFetchWord_pc (n w : Nat) : (s.withFetchWord n w).pc = s.pc := rfl
@[simp] theorem withFetchWord_mem (n w : Nat) :
    (s.withFetchWord n w).mem = Memory.write s.mem (cellIndex s.pc.toNat) (tableWord n w) := rfl
@[simp] theorem withFetchWord_run (n w : Nat) : (s.withFetchWord n w).run = .running := rfl
@[simp] theorem withFetchWord_clk (n w : Nat) : (s.withFetchWord n w).clk = s.clk := rfl
@[simp] theorem withFetchWord_cache (n w : Nat) : (s.withFetchWord n w).cache = s.cache := rfl
@[simp] theorem withFetchWord_events (n w : Nat) : (s.withFetchWord n w).events = s.events := rfl

@[simp] theorem reset_regs : State.reset.regs = Vector.replicate 8 0 := rfl
@[simp] theorem reset_pc : State.reset.pc = 0 := rfl
@[simp] theorem reset_mem : State.reset.mem = [] := rfl
@[simp] theorem reset_run : State.reset.run = .running := rfl
@[simp] theorem reset_clk : State.reset.clk = 0 := rfl
@[simp] theorem reset_cache : State.reset.cache = [] := rfl
@[simp] theorem reset_events : State.reset.events = [] := rfl

/-- A register file written at `i` and read at `j`. -/
theorem regs_set_get (r : Vector Word 8) (i j : Reg) (v : Word) : (r.set i v)[j] = if j = i then v else r[j] := by
  simp [Vector.getElem_set, Fin.ext_iff, eq_comm]

/-- What the register file reads after a write and the common end of an instruction. -/
theorem retire_writeReg_get (i j : Reg) (v npc : Word) (halt : Bool) :
    (retire (writeReg s i v) npc halt).regs[j] = if j = 0 then 0 else if j = i then v else s.regs[j] := by
  have h : (retire (writeReg s i v) npc halt).regs[j] = ((s.regs.set i v).set (0 : Reg) 0)[j] := rfl
  rw [h, regs_set_get, regs_set_get]

/-- What the register file reads after the common end of an instruction. -/
theorem retire_get (j : Reg) (npc : Word) (halt : Bool) :
    (retire s npc halt).regs[j] = if j = 0 then 0 else s.regs[j] :=
  regs_set_get s.regs 0 j 0

end Sys2Proof.Machine
end

