-- ==== Sys2Proof/Laws/Memory.lean ====
section
/-! SUPPORT. Memory: reads after writes, the canonical form is kept, and equal reads are equal memories. -/

namespace Sys2Proof.Machine

@[simp] theorem unlistedCell_eq : unlistedCell = 0 := rfl

@[simp] theorem Memory.read_nil (a : Nat) : Memory.read [] a = 0 := rfl

@[simp] theorem Memory.read_cons (c : Nat × Word) (m : Memory) (a : Nat) :
    Memory.read (c :: m) a = if c.1 = a then c.2 else Memory.read m a := rfl

theorem Memory.read_erase (m : Memory) (a b : Nat) :
    Memory.read (Memory.erase m a) b = if b = a then 0 else Memory.read m b := by
  unfold Memory.erase
  induction m with
  | nil => simp
  | cons c m ih =>
    by_cases hc : c.1 = a
    · simp only [List.filter_cons, hc, bne_self_eq_false, Bool.false_eq_true, if_false, ih, Memory.read_cons]
      by_cases hb : b = a
      · simp [hb]
      · simp [hb, Ne.symm hb]
    · simp only [List.filter_cons, bne_iff_ne, ne_eq, hc, not_false_eq_true, if_true, Memory.read_cons, ih]
      by_cases hb : b = a
      · simp [hb, hc]
      · simp [hb]

theorem Memory.read_insert (m : Memory) (a b : Nat) (v : Word) (h : ∀ c ∈ m, c.1 ≠ a) :
    Memory.read (Memory.insert m a v) b = if b = a then v else Memory.read m b := by
  induction m with
  | nil => simp [Memory.insert, eq_comm]
  | cons c m ih =>
    have hc : c.1 ≠ a := h c (by simp)
    have hm : ∀ c ∈ m, c.1 ≠ a := fun d hd => h d (by simp [hd])
    unfold Memory.insert
    split
    · by_cases hb : b = a
      · simp [hb]
      · simp [hb, Ne.symm hb]
    · simp only [Memory.read_cons, ih hm]
      by_cases hb : b = a
      · simp [hb, hc]
      · simp [hb]

theorem Memory.erase_ne (m : Memory) (a : Nat) : ∀ c ∈ Memory.erase m a, c.1 ≠ a := by
  intro c hc
  simpa [Memory.erase] using (List.mem_filter.1 hc).2

/-- A cell reads the value written to it, and every other cell reads as before, whatever the list. -/
theorem Memory.read_write (m : Memory) (a b : Nat) (v : Word) :
    Memory.read (Memory.write m a v) b = if b = a then v else Memory.read m b := by
  unfold Memory.write
  split
  · next h => rw [Memory.read_erase, h]; rfl
  · rw [Memory.read_insert _ _ _ _ (Memory.erase_ne m a), Memory.read_erase]
    by_cases hb : b = a <;> simp [hb]

theorem Memory.erase_wf {m : Memory} (h : Memory.wf m) (a : Nat) : Memory.wf (Memory.erase m a) :=
  ⟨h.1.filter _, fun c hc => h.2 c (List.mem_filter.1 hc).1⟩

theorem Memory.mem_insert (m : Memory) (a : Nat) (v : Word) (c : Nat × Word) :
    c ∈ Memory.insert m a v ↔ c = (a, v) ∨ c ∈ m := by
  induction m with
  | nil => simp [Memory.insert]
  | cons d m ih =>
    unfold Memory.insert
    split
    · simp
    · simp only [List.mem_cons, ih]
      tauto

theorem Memory.insert_wf {m : Memory} (h : Memory.wf m) (a : Nat) (v : Word) (ha : a < 8192) (hv : v ≠ 0)
    (hne : ∀ c ∈ m, c.1 ≠ a) : Memory.wf (Memory.insert m a v) := by
  refine ⟨?_, fun c hc => ?_⟩
  · obtain ⟨h, -⟩ := h
    induction m with
    | nil => simp [Memory.insert]
    | cons d m ih =>
      obtain ⟨hd, hm⟩ := List.pairwise_cons.1 h
      have hda : d.1 ≠ a := hne d (by simp)
      unfold Memory.insert
      split
      · next hlt =>
        refine List.pairwise_cons.2 ⟨fun c hc => ?_, h⟩
        rcases List.mem_cons.1 hc with rfl | hc
        · exact hlt
        · exact Nat.lt_trans hlt (hd c hc)
      · next hlt =>
        refine List.pairwise_cons.2 ⟨fun c hc => ?_, ih (fun c hc => hne c (by simp [hc])) hm⟩
        rcases (Memory.mem_insert m a v c).1 hc with rfl | hc
        · show d.1 < a
          omega
        · exact hd c hc
  · rcases (Memory.mem_insert m a v c).1 hc with rfl | hc
    · exact ⟨ha, hv⟩
    · exact h.2 c hc

/-- A write keeps the canonical form. -/
theorem Memory.write_wf {m : Memory} (h : Memory.wf m) (a : Nat) (v : Word) (ha : a < 8192) :
    Memory.wf (Memory.write m a v) := by
  unfold Memory.write
  split
  · exact Memory.erase_wf h a
  · next hv => exact Memory.insert_wf (Memory.erase_wf h a) a v ha hv (Memory.erase_ne m a)

theorem Memory.ofImageFrom_bounds (i : Nat) (image : List Word) :
    ∀ c ∈ Memory.ofImageFrom i image, i ≤ c.1 ∧ c.1 < i + image.length ∧ c.2 ≠ 0 := by
  induction image generalizing i with
  | nil => simp [Memory.ofImageFrom]
  | cons w rest ih =>
    intro c hc
    unfold Memory.ofImageFrom at hc
    split at hc
    · have := ih (i + 1) c hc
      simp only [List.length_cons]
      exact ⟨by omega, by omega, this.2.2⟩
    · next hw =>
      rcases List.mem_cons.1 hc with rfl | hc
      · exact ⟨by simp, by simp, hw⟩
      · have := ih (i + 1) c hc
        simp only [List.length_cons]
        exact ⟨by omega, by omega, this.2.2⟩

/-- The memory of an image that fits has the canonical form. -/
theorem Memory.ofImage_wf (image : List Word) (h : image.length ≤ 8192) : Memory.wf (Memory.ofImage image) := by
  refine ⟨?_, fun c hc => ?_⟩
  · unfold Memory.ofImage
    generalize 0 = i
    clear h
    induction image generalizing i with
    | nil => simp [Memory.ofImageFrom]
    | cons w rest ih =>
      unfold Memory.ofImageFrom
      split
      · exact ih (i + 1)
      · refine List.pairwise_cons.2 ⟨fun c hc => ?_, ih (i + 1)⟩
        have := (Memory.ofImageFrom_bounds (i + 1) rest c hc).1
        show i < c.1
        omega
  · have hb := Memory.ofImageFrom_bounds 0 image c hc
    refine ⟨?_, hb.2.2⟩
    show c.1 < 8192
    omega

theorem Memory.read_eq_zero_of_lt {m : Memory} {a : Nat} (h : ∀ c ∈ m, a < c.1) : Memory.read m a = 0 := by
  induction m with
  | nil => rfl
  | cons c m ih =>
    have hc : c.1 ≠ a := by have := h c (by simp); omega
    simp [hc, ih (fun d hd => h d (by simp [hd]))]

theorem Memory.read_ofImageFrom (i : Nat) (image : List Word) (a : Nat) :
    Memory.read (Memory.ofImageFrom i image) (i + a) = image.getD a 0 := by
  induction image generalizing i a with
  | nil => simp [Memory.ofImageFrom]
  | cons w rest ih =>
    have zero : Memory.read (Memory.ofImageFrom (i + 1) rest) i = 0 :=
      Memory.read_eq_zero_of_lt fun c hc => by have := (Memory.ofImageFrom_bounds (i + 1) rest c hc).1; omega
    have succ : ∀ a, Memory.read (Memory.ofImageFrom (i + 1) rest) (i + (a + 1)) = rest.getD a 0 := fun a => by
      have := ih (i + 1) a
      rwa [show i + 1 + a = i + (a + 1) by omega] at this
    unfold Memory.ofImageFrom
    split
    · next hw =>
      have hw0 : w = 0 := hw
      cases a with
      | zero => simp [zero, hw0]
      | succ a => simp [succ]
    · cases a with
      | zero => simp
      | succ a => simp [succ]

/-- A cell of a loaded memory reads the image's word, and 0 past the image. -/
theorem Memory.read_ofImage (image : List Word) (a : Nat) :
    Memory.read (Memory.ofImage image) a = image.getD a 0 := by
  simpa [Memory.ofImage] using Memory.read_ofImageFrom 0 image a

/-- In the canonical form, memories that read the same are the same data. -/
theorem Memory.ext_of_wf {m n : Memory} (hm : Memory.wf m) (hn : Memory.wf n)
    (h : ∀ a, Memory.read m a = Memory.read n a) : m = n := by
  induction m generalizing n with
  | nil =>
    cases n with
    | nil => rfl
    | cons d n => exact absurd (by simpa using (h d.1).symm) (hn.2 d (by simp)).2
  | cons c m ih =>
    cases n with
    | nil => exact absurd (by simpa using h c.1) (hm.2 c (by simp)).2
    | cons d n =>
      obtain ⟨hcm, hm'⟩ := List.pairwise_cons.1 hm.1
      obtain ⟨hdn, hn'⟩ := List.pairwise_cons.1 hn.1
      have hkey : c.1 = d.1 := by
        rcases Nat.lt_trichotomy c.1 d.1 with hlt | heq | hgt
        · have hz : Memory.read (d :: n) c.1 = 0 := Memory.read_eq_zero_of_lt fun e he => by
            rcases List.mem_cons.1 he with rfl | he
            · exact hlt
            · exact Nat.lt_trans hlt (hdn e he)
          exact absurd (by simpa [hz] using h c.1) (hm.2 c (by simp)).2
        · exact heq
        · have hz : Memory.read (c :: m) d.1 = 0 := Memory.read_eq_zero_of_lt fun e he => by
            rcases List.mem_cons.1 he with rfl | he
            · exact hgt
            · exact Nat.lt_trans hgt (hcm e he)
          exact absurd (by simpa [hz] using (h d.1).symm) (hn.2 d (by simp)).2
      have hval : c.2 = d.2 := by simpa [hkey] using h c.1
      have hcd : c = d := Prod.ext hkey hval
      subst hcd
      rw [ih ⟨hm', fun e he => hm.2 e (by simp [he])⟩ ⟨hn', fun e he => hn.2 e (by simp [he])⟩]
      intro a
      by_cases ha : c.1 = a
      · rw [Memory.read_eq_zero_of_lt fun e he => ha ▸ hcm e he, Memory.read_eq_zero_of_lt fun e he => ha ▸ hdn e he]
      · simpa [ha] using h a

theorem cellIndex_lt (a : Nat) : cellIndex a < 8192 := Nat.mod_lt _ (by decide)

@[simp] theorem cellIndex_cellIndex (a : Nat) : cellIndex (cellIndex a) = cellIndex a := Nat.mod_mod _ _

/-- What memory reads after a store to `a`. -/
theorem memRead_memWrite (s : State) (a b : Nat) (v : Word) :
    memRead (memWrite s a v) b = if cellIndex b = cellIndex a then v else memRead s b :=
  Memory.read_write s.mem (cellIndex a) (cellIndex b) v

/-- A store keeps the canonical form. -/
theorem memWrite_wf {s : State} (h : Memory.wf s.mem) (a : Nat) (v : Word) : Memory.wf (memWrite s a v).mem :=
  Memory.write_wf h _ v (cellIndex_lt a)

/-- The reset memory has the canonical form. -/
theorem reset_mem_wf : Memory.wf State.reset.mem := by decide

end Sys2Proof.Machine
end

