-- ==== Sys2Proof/Laws/Cache.lean ====
section
/-! SUPPORT. The cache controller: what a scan, an access and a walk can do, and that they keep a level sound. -/

namespace Sys2Proof.Machine

/-! ### The victim -/

theorem leastRecent_eq_none {row : Row} : leastRecent row = none ↔ row = [] := by
  cases row with
  | nil => simp [leastRecent]
  | cons b rest =>
    simp only [leastRecent, reduceCtorEq, iff_false]
    split
    · simp
    · split <;> simp

/-- The way found is the first of those with the smallest recency. -/
theorem leastRecent_spec {row : Row} {v r : Nat} (h : leastRecent row = some (v, r)) :
    IsVictim row v ∧ ∃ b, row[v]? = some b ∧ b.recency = r := by
  induction row generalizing v r with
  | nil => simp [leastRecent] at h
  | cons b rest ih =>
    unfold leastRecent at h
    split at h
    · next hn =>
      obtain rfl := leastRecent_eq_none.1 hn
      obtain ⟨rfl, rfl⟩ : 0 = v ∧ b.recency = r := by simpa using h
      refine ⟨⟨b, rfl, fun j c hc => ?_⟩, b, rfl, rfl⟩
      cases j with
      | zero => simp at hc; simp [hc]
      | succ j => simp at hc
    · next w q hw =>
      obtain ⟨⟨c, hc, hmin⟩, d, hd, hq⟩ := ih hw
      obtain rfl : c = d := by rw [hc] at hd; exact Option.some.inj hd
      split at h
      · next hle =>
        obtain ⟨rfl, rfl⟩ : 0 = v ∧ b.recency = r := by simpa using h
        refine ⟨⟨b, rfl, fun j e he => ⟨?_, fun hj => absurd hj (Nat.not_lt_zero _)⟩⟩, b, rfl, rfl⟩
        cases j with
        | zero => simp at he; simp [he]
        | succ j => exact Nat.le_trans (hq ▸ hle) (hmin j e (by simpa using he)).1
      · next hgt =>
        obtain ⟨rfl, rfl⟩ : w + 1 = v ∧ q = r := by simpa using h
        refine ⟨⟨c, by simpa using hc, fun j e he => ?_⟩, c, by simpa using hc, hq⟩
        cases j with
        | zero =>
          obtain rfl : b = e := by simpa using he
          omega
        | succ j =>
          have := hmin j e (by simpa using he)
          exact ⟨this.1, fun hj => this.2 (by omega)⟩

/-! ### The scan (45_cache_hierarchy.md R195) -/

/-- A hit names the first way that holds the tag. -/
theorem scan_hit {row : Row} {tag way : Nat} (h : scan row tag = .hit way) :
    ∃ b, row[way]? = some b ∧ b.tag = tag := by
  unfold scan at h
  split at h
  · next w hw =>
    obtain rfl : w = way := by simpa using h
    obtain ⟨hlt, hp, -⟩ := List.findIdx?_eq_some_iff_getElem.1 hw
    exact ⟨row[w], by simp [hlt], by simpa using hp⟩
  · cases h

/-- A miss says that no block has the tag, and names the victim of a row that is not empty. -/
theorem scan_miss {row : Row} {tag : Nat} {c : Option Nat} (h : scan row tag = .miss c) :
    (∀ b ∈ row, b.tag ≠ tag) ∧ (row = [] ∧ c = none ∨ ∃ v, c = some v ∧ IsVictim row v) := by
  unfold scan at h
  split at h
  · cases h
  · next hn =>
    refine ⟨fun b hb => by simpa using List.findIdx?_eq_none_iff.1 hn b hb, ?_⟩
    have hc : (leastRecent row).map (·.1) = c := by simpa using h
    cases hl : leastRecent row with
    | none => exact .inl ⟨leastRecent_eq_none.1 hl, by rw [← hc, hl]; rfl⟩
    | some p => exact .inr ⟨p.1, by rw [← hc, hl]; rfl, (leastRecent_spec (v := p.1) (r := p.2) hl).1⟩

/-- A scan hits exactly when some block has the tag (45_cache_hierarchy.md R196). -/
theorem scan_isHit (row : Row) (tag : Nat) : (scan row tag).isHit = true ↔ ∃ b ∈ row, b.tag = tag := by
  cases h : scan row tag with
  | hit way =>
    obtain ⟨b, hb, ht⟩ := scan_hit h
    simpa [ScanResult.isHit] using ⟨b, List.mem_of_getElem? hb, ht⟩
  | miss c =>
    have := (scan_miss h).1
    simp only [ScanResult.isHit, Bool.false_eq_true, false_iff, not_exists, not_and]
    exact this

/-! ### One row and one level (45_cache_hierarchy.md R196, R197) -/

/-- Everything an access can make of its row. -/
theorem touchRow_spec {assoc : Nat} (ha : 1 ≤ assoc) (row : Row) (tag clk : Nat) :
    RowAfter assoc tag clk row (touchRow assoc row tag clk) := by
  unfold touchRow
  cases h : scan row tag with
  | hit way =>
    obtain ⟨b, hb, ht⟩ := scan_hit h
    refine .inl ⟨way, b, hb, ht, ?_⟩
    obtain ⟨hlt, hg⟩ := List.getElem?_eq_some_iff.1 hb
    simp [List.modify_eq_set_getElem?, hb, ← ht]
  | miss c =>
    obtain ⟨hno, hc⟩ := scan_miss h
    show RowAfter assoc tag clk row (if row.length = assoc then _ else _)
    split
    · next hfull =>
      refine .inr (.inr ⟨hno, hfull, ?_⟩)
      rcases hc with ⟨rfl, rfl⟩ | ⟨v, rfl, hv⟩
      · simp at hfull; omega
      · exact ⟨v, hv, rfl⟩
    · next hfree => exact .inr (.inl ⟨hno, hfree, rfl⟩)

theorem rowOf_eq (c : LevelConfig) (addr : Nat) : (decompose c addr).1 = rowOf c addr := rfl

theorem tagOf_eq (c : LevelConfig) (addr : Nat) : (decompose c addr).2 = tagOf c addr := rfl

theorem access_row (lv : CacheLevel) (addr clk : Nat) : (access lv addr clk).row = rowOf lv.cfg addr := rfl

/-- An access hits exactly when its row holds the address's tag (45_cache_hierarchy.md R196). -/
theorem access_hit (lv : CacheLevel) (addr clk : Nat) : (access lv addr clk).hit = true ↔ Hits lv addr :=
  scan_isHit _ _

theorem access_level (lv : CacheLevel) (addr clk : Nat) :
    (access lv addr clk).level =
      ⟨lv.cfg, lv.rows.set (rowOf lv.cfg addr)
        (touchRow lv.cfg.assoc (lv.rows.getD (rowOf lv.cfg addr) []) (tagOf lv.cfg addr) clk)⟩ := rfl

theorem LevelConfig.legal_iff (c : LevelConfig) :
    c.legal = true ↔ 1 ≤ c.size ∧ 1 ≤ c.assoc ∧ 1 ≤ c.bsize ∧ c.size % (c.bsize * c.assoc) = 0 := by
  simp [LevelConfig.legal, and_assoc]

/-- A legal level has a row (45_cache_hierarchy.md R191). -/
theorem LevelConfig.numRows_pos {c : LevelConfig} (h : c.legal = true) : 1 ≤ c.numRows := by
  obtain ⟨hs, ha, hb, hd⟩ := (LevelConfig.legal_iff c).1 h
  have hpos : 0 < c.bsize * c.assoc := Nat.mul_pos hb ha
  exact (Nat.one_le_div_iff hpos).2 (Nat.le_of_dvd hs (Nat.dvd_of_mod_eq_zero hd))

/-- `size = block_size * associativity * number_of_rows` (45_cache_hierarchy.md R191). -/
theorem LevelConfig.size_eq {c : LevelConfig} (h : c.legal = true) : c.size = c.bsize * c.assoc * c.numRows := by
  obtain ⟨-, -, -, hd⟩ := (LevelConfig.legal_iff c).1 h
  exact (Nat.mul_div_cancel' (Nat.dvd_of_mod_eq_zero hd)).symm

theorem rowOf_lt {c : LevelConfig} (h : c.legal = true) (addr : Nat) : rowOf c addr < c.numRows :=
  Nat.mod_lt _ (LevelConfig.numRows_pos h)

/-- The block id is the tag and the row put together (45_cache_hierarchy.md R193). -/
theorem tag_row_bid (c : LevelConfig) (addr : Nat) : tagOf c addr * c.numRows + rowOf c addr = addr / c.bsize :=
  Nat.div_add_mod' _ _

/-- Everything an access can make of a level whose configuration is legal. -/
theorem access_spec {lv : CacheLevel} (hl : lv.cfg.legal = true) (hr : lv.rows.length = lv.cfg.numRows)
    (addr clk : Nat) : LevelAfter addr clk lv (access lv addr clk).level := by
  have ha := ((LevelConfig.legal_iff _).1 hl).2.1
  have hlt : rowOf lv.cfg addr < lv.rows.length := hr ▸ rowOf_lt hl addr
  rw [access_level]
  refine ⟨rfl, by simp, fun r hne => ?_, ?_⟩
  · simp [List.getD_eq_getElem?_getD, Ne.symm hne]
  · have : (lv.rows.set (rowOf lv.cfg addr) (touchRow lv.cfg.assoc (lv.rows.getD (rowOf lv.cfg addr) [])
        (tagOf lv.cfg addr) clk)).getD (rowOf lv.cfg addr) [] =
        touchRow lv.cfg.assoc (lv.rows.getD (rowOf lv.cfg addr) []) (tagOf lv.cfg addr) clk := by
      simp [List.getD_eq_getElem?_getD, hlt]
    rw [this]
    exact touchRow_spec ha _ _ _

/-! ### A sound level stays sound (10_state.md R35) -/

theorem RowAfter.length_le {assoc tag clk : Nat} {old new : Row} (h : RowAfter assoc tag clk old new)
    (hl : old.length ≤ assoc) : new.length ≤ assoc := by
  rcases h with ⟨w, b, -, -, rfl⟩ | ⟨-, hne, rfl⟩ | ⟨-, -, v, -, rfl⟩
  · simpa using hl
  · simp only [List.length_append, List.length_singleton]; omega
  · simpa using hl

/-- Every block after an access is the new one or an old one. -/
theorem RowAfter.mem {assoc tag clk : Nat} {old new : Row} (h : RowAfter assoc tag clk old new) :
    ∀ b ∈ new, b = ⟨tag, clk⟩ ∨ b ∈ old := by
  intro b hb
  rcases h with ⟨w, c, -, -, rfl⟩ | ⟨-, -, rfl⟩ | ⟨-, -, v, -, rfl⟩
  · exact (List.mem_or_eq_of_mem_set hb).symm
  · simpa [or_comm] using hb
  · exact (List.mem_or_eq_of_mem_set hb).symm

theorem RowAfter.tags_nodup {assoc tag clk : Nat} {old new : Row} (h : RowAfter assoc tag clk old new)
    (hn : (old.map (·.tag)).Nodup) : (new.map (·.tag)).Nodup := by
  rcases h with ⟨w, c, hc, ht, rfl⟩ | ⟨hno, -, rfl⟩ | ⟨hno, -, v, -, rfl⟩
  · have hw : (old.map (·.tag))[w]? = some tag := by simp [hc, ht]
    obtain ⟨hlt, hg⟩ := List.getElem?_eq_some_iff.1 hw
    rw [List.map_set, ← hg, List.set_getElem_self]
    exact hn
  · rw [List.map_append, List.nodup_append]
    refine ⟨hn, by simp, ?_⟩
    simpa using hno
  · rw [List.map_set]
    exact hn.set (by simpa using hno)

theorem RowAfter.stamps_nodup {assoc tag clk : Nat} {old new : Row} (h : RowAfter assoc tag clk old new)
    (hp : ∀ b ∈ old, b.recency < clk) (hn : (old.map (·.recency)).Nodup) : (new.map (·.recency)).Nodup := by
  have hfresh : clk ∉ old.map (·.recency) := by
    simp only [List.mem_map, not_exists, not_and]
    exact fun b hb => Nat.ne_of_lt (hp b hb)
  rcases h with ⟨w, c, -, -, rfl⟩ | ⟨-, -, rfl⟩ | ⟨-, -, v, -, rfl⟩
  · rw [List.map_set]; exact hn.set hfresh
  · rw [List.map_append, List.nodup_append]
    refine ⟨hn, by simp, fun a ha b hb => ?_⟩
    obtain rfl : b = clk := by simpa using hb
    exact fun e => hfresh (e ▸ ha)
  · rw [List.map_set]; exact hn.set hfresh

/-- An access at the current clock keeps a level sound for the next one. -/
theorem access_inv {lv : CacheLevel} {clk : Nat} (h : lv.Inv clk) {addr : Nat} (ha : addr < 8192) :
    (access lv addr clk).level.Inv (clk + 1) := by
  have hlt : rowOf lv.cfg addr < lv.rows.length := h.rowCount ▸ rowOf_lt h.legal addr
  have hassoc := ((LevelConfig.legal_iff _).1 h.legal).2.1
  have hget : lv.rows.getD (rowOf lv.cfg addr) [] = lv.rows[rowOf lv.cfg addr] := by simp [hlt]
  have hold : lv.rows.getD (rowOf lv.cfg addr) [] ∈ lv.rows := hget ▸ List.getElem_mem hlt
  have hrow := touchRow_spec hassoc (lv.rows.getD (rowOf lv.cfg addr) []) (tagOf lv.cfg addr) clk
  rw [access_level]
  generalize hnew : touchRow lv.cfg.assoc (lv.rows.getD (rowOf lv.cfg addr) []) (tagOf lv.cfg addr) clk = new at hrow
  refine ⟨h.legal, by simpa using h.rowCount, fun row hr => ?_, fun row hr => ?_, fun r b hb => ?_,
    fun row hr b hb => ?_, ?_⟩
  · rcases List.mem_or_eq_of_mem_set hr with hr | rfl
    · exact h.capacity row hr
    · exact hrow.length_le (h.capacity _ hold)
  · rcases List.mem_or_eq_of_mem_set hr with hr | rfl
    · exact h.tagsDistinct row hr
    · exact hrow.tags_nodup (h.tagsDistinct _ hold)
  · by_cases hrr : r = rowOf lv.cfg addr
    · subst hrr
      have hb' : b ∈ new := by simpa [List.getD_eq_getElem?_getD, List.getElem?_set, hlt] using hb
      rcases hrow.mem b hb' with rfl | hb'
      · show lv.cfg.bsize * (tagOf lv.cfg addr * lv.cfg.numRows + rowOf lv.cfg addr) < 8192
        rw [tag_row_bid]
        exact Nat.lt_of_le_of_lt (Nat.mul_div_le addr lv.cfg.bsize) ha
      · exact h.standsForCells _ b hb'
    · refine h.standsForCells r b ?_
      simpa [List.getD_eq_getElem?_getD, List.getElem?_set, Ne.symm hrr] using hb
  · rcases List.mem_or_eq_of_mem_set hr with hr | rfl
    · exact Nat.lt_succ_of_lt (h.stampsPast row hr b hb)
    · rcases hrow.mem b hb with rfl | hb
      · exact Nat.lt_succ_self clk
      · exact Nat.lt_succ_of_lt (h.stampsPast _ hold b hb)
  · have hsplit : lv.rows = lv.rows.take (rowOf lv.cfg addr) ++
        lv.rows.getD (rowOf lv.cfg addr) [] :: lv.rows.drop (rowOf lv.cfg addr + 1) := by
      rw [hget, List.cons_getElem_drop_succ, List.take_append_drop]
    have hpast := h.stampsPast
    have hnd := h.stampsDistinct
    show ((lv.rows.set (rowOf lv.cfg addr) new).flatten.map (·.recency)).Nodup
    rw [List.set_eq_take_append_cons_drop, if_pos hlt]
    generalize lv.rows.take (rowOf lv.cfg addr) = A at *
    generalize lv.rows.drop (rowOf lv.cfg addr + 1) = B at *
    generalize lv.rows.getD (rowOf lv.cfg addr) [] = old at *
    rw [hsplit] at hnd hpast
    have hpastA : ∀ b ∈ A.flatten, b.recency < clk := fun b hb => by
      obtain ⟨row, hr, hb⟩ := List.mem_flatten.1 hb
      exact hpast row (by simp [hr]) b hb
    have hpastB : ∀ b ∈ B.flatten, b.recency < clk := fun b hb => by
      obtain ⟨row, hr, hb⟩ := List.mem_flatten.1 hb
      exact hpast row (by simp [hr]) b hb
    have hpastOld : ∀ b ∈ old, b.recency < clk := fun b hb => hpast old (by simp) b hb
    simp only [List.flatten_append, List.flatten_cons, List.map_append, List.nodup_append, List.mem_append,
      List.mem_map] at hnd ⊢
    obtain ⟨hA, ⟨hO, hB, hOB⟩, hAOB⟩ := hnd
    refine ⟨hA, ⟨hrow.stamps_nodup hpastOld hO, hB, ?_⟩, ?_⟩
    · rintro _ ⟨b, hb, rfl⟩ _ ⟨c, hc, rfl⟩
      rcases hrow.mem b hb with rfl | hb
      · exact (Nat.ne_of_lt (hpastB c hc)).symm
      · exact hOB _ ⟨b, hb, rfl⟩ _ ⟨c, hc, rfl⟩
    · rintro _ ⟨b, hb, rfl⟩ _ (⟨c, hc, rfl⟩ | ⟨c, hc, rfl⟩)
      · rcases hrow.mem c hc with rfl | hc
        · exact Nat.ne_of_lt (hpastA b hb)
        · exact hAOB _ ⟨b, hb, rfl⟩ _ (.inl ⟨c, hc, rfl⟩)
      · exact hAOB _ ⟨b, hb, rfl⟩ _ (.inr ⟨c, hc, rfl⟩)

/-- A level that is not visited stays sound as the clock advances. -/
theorem CacheLevel.Inv.later {lv : CacheLevel} {clk : Nat} (h : lv.Inv clk) : lv.Inv (clk + 1) :=
  { h with stampsPast := fun row hr b hb => Nat.lt_succ_of_lt (h.stampsPast row hr b hb) }

/-! ### The walks (45_cache_hierarchy.md R200, R205, R207) -/

@[simp] theorem readWalk_nil (k addr clk : Nat) (pc : Word) : readWalk k [] addr clk pc = ⟨[], []⟩ := rfl

@[simp] theorem writeWalk_nil (k addr clk : Nat) (pc : Word) : writeWalk k [] addr clk pc = ⟨[], []⟩ := rfl

/-- A read hit stops the walk and leaves the deeper levels alone. -/
theorem readWalk_hit {lv : CacheLevel} {addr : Nat} (h : Hits lv addr) (k : Nat) (rest : List CacheLevel) (clk : Nat)
    (pc : Word) : readWalk k (lv :: rest) addr clk pc =
      ⟨(access lv addr clk).level :: rest, [.access k .hit pc addr (rowOf lv.cfg addr)]⟩ := by
  simp [readWalk, (access_hit lv addr clk).2 h, access_row]

/-- A read miss goes on to the next level. -/
theorem readWalk_miss {lv : CacheLevel} {addr : Nat} (h : ¬ Hits lv addr) (k : Nat) (rest : List CacheLevel)
    (clk : Nat) (pc : Word) : readWalk k (lv :: rest) addr clk pc =
      ⟨(access lv addr clk).level :: (readWalk (k + 1) rest addr clk pc).levels,
        .access k .miss pc addr (rowOf lv.cfg addr) :: (readWalk (k + 1) rest addr clk pc).events⟩ := by
  have : (access lv addr clk).hit = false := by
    simpa using fun hh => h ((access_hit lv addr clk).1 hh)
  simp [readWalk, this, access_row]

/-- A write visits this level and goes on. -/
theorem writeWalk_cons (k : Nat) (lv : CacheLevel) (rest : List CacheLevel) (addr clk : Nat) (pc : Word) :
    writeWalk k (lv :: rest) addr clk pc =
      ⟨(access lv addr clk).level :: (writeWalk (k + 1) rest addr clk pc).levels,
        .access k .sw pc addr (rowOf lv.cfg addr) :: (writeWalk (k + 1) rest addr clk pc).events⟩ := rfl

/-- After a read walk every level is either untouched or has had one access. -/
theorem readWalk_levels (k : Nat) (levels : List CacheLevel) (addr clk : Nat) (pc : Word) :
    List.Forall₂ (fun old new => new = old ∨ new = (access old addr clk).level) levels
      (readWalk k levels addr clk pc).levels := by
  induction levels generalizing k with
  | nil => exact .nil
  | cons lv rest ih =>
    by_cases h : Hits lv addr
    · rw [readWalk_hit h]
      exact .cons (.inr rfl) (List.forall₂_same.2 fun _ _ => .inl rfl)
    · rw [readWalk_miss h]
      exact .cons (.inr rfl) (ih (k + 1))

/-- After a write walk every level has had one access. -/
theorem writeWalk_levels (k : Nat) (levels : List CacheLevel) (addr clk : Nat) (pc : Word) :
    List.Forall₂ (fun old new => new = (access old addr clk).level) levels
      (writeWalk k levels addr clk pc).levels := by
  induction levels generalizing k with
  | nil => exact .nil
  | cons lv rest ih => exact .cons rfl (ih (k + 1))

end Sys2Proof.Machine
end

