-- ==== Sys2Proof/Laws/Decode.lean ====
section
/-! SUPPORT. The fields of an encoded word, format by format, and a word put together from its fields. -/

namespace Sys2Proof

theorem regBits_toFin (b : BitVec 3) : regBits b.toFin = b := rfl

theorem toFin_regBits (r : Reg) : (regBits r).toFin = r := rfl

/-! ### Format RRR -/

theorem opField_encodeRRR (rA rB rC : Reg) (f : BitVec 4) : opField (encodeRRR rA rB rC f) = 0b000#3 := by
  unfold opField encodeRRR
  ext i hi
  simp only [BitVec.getElem_extractLsb', BitVec.getLsbD_cast, BitVec.getLsbD_append]
  interval_cases i <;> simp

theorem funcField_encodeRRR (rA rB rC : Reg) (f : BitVec 4) : funcField (encodeRRR rA rB rC f) = f := by
  unfold funcField encodeRRR
  ext i hi
  simp only [BitVec.getElem_extractLsb', BitVec.getLsbD_cast, BitVec.getLsbD_append]
  interval_cases i <;> simp

theorem rAField_encodeRRR (rA rB rC : Reg) (f : BitVec 4) : rAField (encodeRRR rA rB rC f) = rA := by
  have h : (encodeRRR rA rB rC f).extractLsb' 10 3 = regBits rA := by
    unfold encodeRRR
    ext i hi
    simp only [BitVec.getElem_extractLsb', BitVec.getLsbD_cast, BitVec.getLsbD_append]
    interval_cases i <;> simp
  simp [rAField, h, toFin_regBits]

theorem rBField_encodeRRR (rA rB rC : Reg) (f : BitVec 4) : rBField (encodeRRR rA rB rC f) = rB := by
  have h : (encodeRRR rA rB rC f).extractLsb' 7 3 = regBits rB := by
    unfold encodeRRR
    ext i hi
    simp only [BitVec.getElem_extractLsb', BitVec.getLsbD_cast, BitVec.getLsbD_append]
    interval_cases i <;> simp
  simp [rBField, h, toFin_regBits]

theorem rCField_encodeRRR (rA rB rC : Reg) (f : BitVec 4) : rCField (encodeRRR rA rB rC f) = rC := by
  have h : (encodeRRR rA rB rC f).extractLsb' 4 3 = regBits rC := by
    unfold encodeRRR
    ext i hi
    simp only [BitVec.getElem_extractLsb', BitVec.getLsbD_cast, BitVec.getLsbD_append]
    interval_cases i <;> simp
  simp [rCField, h, toFin_regBits]

theorem encodeRRR_fields {w : Word} (h : opField w = 0b000#3) :
    encodeRRR (rAField w) (rBField w) (rCField w) (funcField w) = w := by
  have hb : ∀ i, i < 3 → w.getLsbD (13 + i) = false := fun i hi => by
    have := congrArg (fun x => x.getLsbD i) h
    simpa [opField, hi] using this
  have h13 := hb 0 (by omega)
  have h14 := hb 1 (by omega)
  have h15 := hb 2 (by omega)
  unfold encodeRRR rAField rBField rCField funcField
  simp only [regBits_toFin]
  ext i hi
  simp only [BitVec.getElem_cast, BitVec.getElem_append, BitVec.getElem_extractLsb']
  interval_cases i <;> simp_all [BitVec.getLsbD_eq_getElem]

/-! ### Format RRI -/

theorem opField_encodeRRI (op : BitVec 3) (rA rB : Reg) (imm7 : Imm7) : opField (encodeRRI op rA rB imm7) = op := by
  unfold opField encodeRRI
  ext i hi
  simp only [BitVec.getElem_extractLsb', BitVec.getLsbD_cast, BitVec.getLsbD_append]
  interval_cases i <;> simp

theorem rAField_encodeRRI (op : BitVec 3) (rA rB : Reg) (imm7 : Imm7) : rAField (encodeRRI op rA rB imm7) = rA := by
  have h : (encodeRRI op rA rB imm7).extractLsb' 10 3 = regBits rA := by
    unfold encodeRRI
    ext i hi
    simp only [BitVec.getElem_extractLsb', BitVec.getLsbD_cast, BitVec.getLsbD_append]
    interval_cases i <;> simp
  simp [rAField, h, toFin_regBits]

theorem rBField_encodeRRI (op : BitVec 3) (rA rB : Reg) (imm7 : Imm7) : rBField (encodeRRI op rA rB imm7) = rB := by
  have h : (encodeRRI op rA rB imm7).extractLsb' 7 3 = regBits rB := by
    unfold encodeRRI
    ext i hi
    simp only [BitVec.getElem_extractLsb', BitVec.getLsbD_cast, BitVec.getLsbD_append]
    interval_cases i <;> simp
  simp [rBField, h, toFin_regBits]

theorem imm7Field_encodeRRI (op : BitVec 3) (rA rB : Reg) (imm7 : Imm7) :
    imm7Field (encodeRRI op rA rB imm7) = imm7 := by
  unfold imm7Field encodeRRI
  ext i hi
  simp only [BitVec.getElem_extractLsb', BitVec.getLsbD_cast, BitVec.getLsbD_append]
  interval_cases i <;> simp

theorem encodeRRI_fields (w : Word) : encodeRRI (opField w) (rAField w) (rBField w) (imm7Field w) = w := by
  unfold encodeRRI opField rAField rBField imm7Field
  simp only [regBits_toFin]
  ext i hi
  simp only [BitVec.getElem_cast, BitVec.getElem_append, BitVec.getElem_extractLsb']
  interval_cases i <;> simp [BitVec.getLsbD_eq_getElem]

/-! ### Format J -/

theorem opField_encodeJ (op : BitVec 3) (imm13 : Imm13) : opField (encodeJ op imm13) = op := by
  unfold opField encodeJ
  ext i hi
  simp only [BitVec.getElem_extractLsb', BitVec.getLsbD_cast, BitVec.getLsbD_append]
  interval_cases i <;> simp

theorem imm13Field_encodeJ (op : BitVec 3) (imm13 : Imm13) : imm13Field (encodeJ op imm13) = imm13 := by
  unfold imm13Field encodeJ
  ext i hi
  simp only [BitVec.getElem_extractLsb', BitVec.getLsbD_cast, BitVec.getLsbD_append]
  interval_cases i <;> simp

theorem encodeJ_fields (w : Word) : encodeJ (opField w) (imm13Field w) = w := by
  unfold encodeJ opField imm13Field
  ext i hi
  simp only [BitVec.getElem_cast, BitVec.getElem_append, BitVec.getElem_extractLsb']
  interval_cases i <;> simp [BitVec.getLsbD_eq_getElem]

/-! ### The no-operation words -/

theorem opField_encodeNop (ign : Ignored) (f : BitVec 4) : opField (encodeNop ign f) = 0b000#3 := by
  unfold opField encodeNop
  ext i hi
  simp only [BitVec.getElem_extractLsb', BitVec.getLsbD_cast, BitVec.getLsbD_append]
  interval_cases i <;> simp

theorem funcField_encodeNop (ign : Ignored) (f : BitVec 4) : funcField (encodeNop ign f) = f := by
  unfold funcField encodeNop
  ext i hi
  simp only [BitVec.getElem_extractLsb', BitVec.getLsbD_cast, BitVec.getLsbD_append]
  interval_cases i <;> simp

theorem ignoredField_encodeNop (ign : Ignored) (f : BitVec 4) : ignoredField (encodeNop ign f) = ign := by
  unfold ignoredField encodeNop
  ext i hi
  simp only [BitVec.getElem_extractLsb', BitVec.getLsbD_cast, BitVec.getLsbD_append]
  interval_cases i <;> simp

theorem encodeNop_fields {w : Word} (h : opField w = 0b000#3) : encodeNop (ignoredField w) (funcField w) = w := by
  have hb : ∀ i, i < 3 → w.getLsbD (13 + i) = false := fun i hi => by
    have := congrArg (fun x => x.getLsbD i) h
    simpa [opField, hi] using this
  have h13 := hb 0 (by omega)
  have h14 := hb 1 (by omega)
  have h15 := hb 2 (by omega)
  unfold encodeNop ignoredField funcField
  ext i hi
  simp only [BitVec.getElem_cast, BitVec.getElem_append, BitVec.getElem_extractLsb']
  interval_cases i <;> simp_all [BitVec.getLsbD_eq_getElem]

end Sys2Proof
end

