-- ==== Sys2Proof/Laws/Exec.lean ====
section
/-! SUPPORT. Operands as numbers, what a meaning can do, and the cases of a step. -/

namespace Sys2Proof.Machine

/-! ### Operands as numbers -/

/-- 00_scope.md R14. -/
theorem sext7_toNat (v : Imm7) : (sext7 v).toNat = sextNum v := by
  revert v
  decide

@[simp] theorem pcReduce_toNat (v : Word) : (pcReduce v).toNat = v.toNat % 8192 := by
  have h : v.toNat % 8192 < 65536 := Nat.lt_trans (Nat.mod_lt _ (by decide)) (by decide)
  simpa [pcReduce, pcMod] using h

/-- 40_instruction_cycle.md R114. -/
theorem seqPc_toNat (pc : Word) : (seqPc pc).toNat = (pc.toNat + 1) % 8192 := by
  rw [seqPc, pcReduce_toNat, BitVec.toNat_add]
  exact Nat.mod_mod_of_dvd _ (by decide)

/-- 42_control_transfer.md R154. -/
theorem relativeTarget_toNat (pc : Word) (imm7 : Imm7) :
    (relativeTarget pc imm7).toNat = (pc.toNat + 1 + sextNum imm7) % 8192 := by
  rw [relativeTarget, pcReduce_toNat, BitVec.toNat_add, BitVec.toNat_add, sext7_toNat]
  show ((pc.toNat + 1) % 65536 + sextNum imm7) % 65536 % 8192 = _
  omega

/-- 42_control_transfer.md R151. -/
theorem registerTarget_toNat (a : Word) : (registerTarget a).toNat = a.toNat % 8192 := pcReduce_toNat a

/-- 30_encoding.md R85. -/
theorem absoluteTarget_toNat (imm13 : Imm13) : (absoluteTarget imm13).toNat = imm13.toNat := by
  have h : imm13.toNat < 8192 := imm13.isLt
  simp only [absoluteTarget, zext13, BitVec.toNat_setWidth]
  omega

/-- 44_load_store.md R180. -/
theorem effectiveAddr_eq (a : Word) (imm7 : Imm7) : effectiveAddr a imm7 = (a.toNat + sextNum imm7) % 8192 := by
  rw [effectiveAddr, BitVec.toNat_add, sext7_toNat]
  exact Nat.mod_mod_of_dvd _ (by decide)

theorem effectiveAddr_lt (a : Word) (imm7 : Imm7) : effectiveAddr a imm7 < 8192 := cellIndex_lt _

@[simp] theorem cellIndex_effectiveAddr (a : Word) (imm7 : Imm7) :
    cellIndex (effectiveAddr a imm7) = effectiveAddr a imm7 := cellIndex_cellIndex _

theorem linkValue_toNat (pc : Word) : (linkValue pc).toNat = (pc.toNat + 1) % 65536 := by
  simp [linkValue]

/-- The value of `u16` (00_scope.md R13). -/
theorem u16_toNat (v : Int) : ((u16 v).toNat : Int) = v % 65536 := by
  have h : (0 : Int) ≤ v % 65536 := Int.emod_nonneg v (by decide)
  simp [u16, Int.toNat_of_nonneg h]

theorem u16_add (a b : Word) : u16 ((a.toNat : Int) + b.toNat) = a + b := by
  apply BitVec.eq_of_toNat_eq
  have h := u16_toNat ((a.toNat : Int) + b.toNat)
  rw [BitVec.toNat_add]
  omega

theorem u16_sub (a b : Word) : u16 ((a.toNat : Int) - b.toNat) = a - b := by
  apply BitVec.eq_of_toNat_eq
  have h := u16_toNat ((a.toNat : Int) - b.toNat)
  have ha := a.isLt
  have hb := b.isLt
  rw [BitVec.toNat_sub]
  omega

/-! ### What a meaning can do -/

/-- What the body of an instruction can do before the common end: nothing, write one register, load and probe, or
store and probe. -/
def BodyResult (s u : State) : Prop :=
  u = s ∨ (∃ d v, u = writeReg s d v) ∨
  (∃ d ea, ea < 8192 ∧ u = readProbe (writeReg s d (memRead s ea)) ea) ∨
  (∃ ea v, ea < 8192 ∧ u = writeProbe (memWrite s ea v) ea)

/-- Every instruction runs: it is a body and the common end, and the next `pc` is a cell. -/
theorem exec_spec (i : Instr) (s : State) :
    ∃ u npc halt, exec i s = .next (retire u npc halt) ∧ BodyResult s u ∧ npc.toNat < 8192 ∧
      (halt = true → ∃ imm13, i = .j imm13 ∧ absoluteTarget imm13 = s.pc) := by
  have hseq : (seqPc s.pc).toNat < 8192 := by rw [seqPc_toNat]; exact Nat.mod_lt _ (by decide)
  have habs : ∀ imm13, (absoluteTarget imm13).toNat < 8192 := fun imm13 => by
    rw [absoluteTarget_toNat]; exact imm13.isLt
  have nop : ∃ u npc halt, execNop s = .next (retire u npc halt) ∧ BodyResult s u ∧ npc.toNat < 8192 ∧
      (halt = true → ∃ imm13, i = .j imm13 ∧ absoluteTarget imm13 = s.pc) :=
    ⟨s, _, false, rfl, .inl rfl, hseq, fun h => nomatch h⟩
  have wr : ∀ d v, ∃ u npc halt, (Host.Outcome.next (retire (writeReg s d v) (seqPc s.pc) false) :
      Host.Outcome State Fault Refusal) = .next (retire u npc halt) ∧ BodyResult s u ∧ npc.toNat < 8192 ∧
      (halt = true → ∃ imm13, i = .j imm13 ∧ absoluteTarget imm13 = s.pc) :=
    fun d v => ⟨_, _, false, rfl, .inr (.inl ⟨d, v, rfl⟩), hseq, fun h => nomatch h⟩
  cases i with
  | add rA rB rC => exact wr _ _
  | sub rA rB rC => exact wr _ _
  | or rA rB rC => exact wr _ _
  | and rA rB rC => exact wr _ _
  | slt rA rB rC => exact wr _ _
  | addi rA rB imm7 => exact wr _ _
  | slti rA rB imm7 => exact wr _ _
  | jr rA =>
    exact ⟨s, _, false, rfl, .inl rfl, by rw [registerTarget_toNat]; exact Nat.mod_lt _ (by decide), fun h => nomatch h⟩
  | j imm13 =>
    exact ⟨s, _, _, rfl, .inl rfl, habs imm13, fun h => ⟨imm13, rfl, by simpa [isSelfJump] using h⟩⟩
  | jal imm13 => exact ⟨_, _, false, rfl, .inr (.inl ⟨_, _, rfl⟩), habs imm13, fun h => nomatch h⟩
  | jeq rA rB imm7 =>
    refine ⟨s, _, false, rfl, .inl rfl, ?_, fun h => nomatch h⟩
    split
    · rw [relativeTarget_toNat]; exact Nat.mod_lt _ (by decide)
    · exact hseq
  | lw rA rB imm7 =>
    exact ⟨_, _, false, rfl, .inr (.inr (.inl ⟨_, _, effectiveAddr_lt _ _, rfl⟩)), hseq, fun h => nomatch h⟩
  | sw rA rB imm7 =>
    exact ⟨_, _, false, rfl, .inr (.inr (.inr ⟨_, _, effectiveAddr_lt _ _, rfl⟩)), hseq, fun h => nomatch h⟩
  | nopFunc0101 ignored => exact nop
  | nopFunc0110 ignored => exact nop
  | nopFunc0111 ignored => exact nop
  | nopFunc1001 ignored => exact nop
  | nopFunc1010 ignored => exact nop
  | nopFunc1011 ignored => exact nop
  | nopFunc1100 ignored => exact nop
  | nopFunc1101 ignored => exact nop
  | nopFunc1110 ignored => exact nop
  | nopFunc1111 ignored => exact nop
  | nopFunc1000Bit9 ignored => exact nop
  | nopFunc1000Bit8 ignored => exact nop
  | nopFunc1000Bit7 ignored => exact nop
  | nopFunc1000Bit6 ignored => exact nop
  | nopFunc1000Bit5 ignored => exact nop
  | nopFunc1000Bit4 ignored => exact nop

/-- A body leaves `pc`, the clock and the run state alone. -/
theorem BodyResult.control {s u : State} (h : BodyResult s u) : u.pc = s.pc ∧ u.clk = s.clk ∧ u.run = s.run := by
  rcases h with rfl | ⟨d, v, rfl⟩ | ⟨d, ea, -, rfl⟩ | ⟨ea, v, -, rfl⟩ <;> exact ⟨rfl, rfl, rfl⟩

/-- A body keeps memory canonical. -/
theorem BodyResult.mem_wf {s u : State} (h : BodyResult s u) (hm : Memory.wf s.mem) : Memory.wf u.mem := by
  rcases h with rfl | ⟨d, v, rfl⟩ | ⟨d, ea, -, rfl⟩ | ⟨ea, v, -, rfl⟩
  · exact hm
  · exact hm
  · exact hm
  · exact memWrite_wf hm ea v

/-! ### The cases of a step -/

theorem step_of_running {s : State} (h : s.run = .running) : step s = exec (decode (fetch s)) s := by
  unfold step; rw [h]

theorem step_of_halted {s : State} (h : s.run = .halted) : step s = .next s := by
  unfold step notRunning; rw [h]

theorem step_of_inReset {s : State} (h : s.run = .inReset) : step s = .next s := by
  unfold step notRunning; rw [h]

theorem step_of_configError {s : State} {k : Nat} (h : s.run = .failed (.configError k)) :
    step s = .fault (.configError k) := by
  unfold step notRunning; rw [h]

theorem step_of_imageError {s : State} (h : s.run = .failed .imageError) : step s = .fault .imageError := by
  unfold step notRunning; rw [h]

/-- Everything a step that answers a next state can do: run one instruction, or nothing. -/
theorem step_next_cases {s t : State} (h : step s = .next t) :
    (s.run = .running ∧ exec (decode (fetch s)) s = .next t) ∨ ((s.run = .halted ∨ s.run = .inReset) ∧ t = s) := by
  cases hr : s.run with
  | running => exact .inl ⟨rfl, step_of_running hr ▸ h⟩
  | halted => rw [step_of_halted hr] at h; cases h; exact .inr ⟨.inl rfl, rfl⟩
  | inReset => rw [step_of_inReset hr] at h; cases h; exact .inr ⟨.inr rfl, rfl⟩
  | failed e =>
    cases e with
    | configError k => rw [step_of_configError hr] at h; cases h
    | imageError => rw [step_of_imageError hr] at h; cases h

/-- A run of `k + 1` steps is one step and a run of `k`. -/
theorem run_succ_next {k : Nat} {s t : State} :
    core.run (k + 1) s = .next t ↔ ∃ m, step s = .next m ∧ core.run k m = .next t := by
  have hs : core.step s = step s := rfl
  refine (Host.Core.run.eq_2 core s k) ▸ ?_
  rw [hs]
  cases step s with
  | next m => simp
  | fault r => simp
  | refused r => simp

/-- The word placed where the next step fetches is the word it fetches. -/
theorem fetch_withFetchWord (s : State) (nbits w : Nat) : fetch (s.withFetchWord nbits w) = tableWord nbits w := by
  show Memory.read (Memory.write s.mem (cellIndex s.pc.toNat) (tableWord nbits w)) (cellIndex s.pc.toNat) = _
  rw [Memory.read_write, if_pos rfl]

/-! ### Launches -/

theorem firstIllegal_eq_none {k : Nat} {cfgs : List LevelConfig} :
    firstIllegal k cfgs = none ↔ ∀ c ∈ cfgs, c.legal = true := by
  induction cfgs generalizing k with
  | nil => simp [firstIllegal]
  | cons c rest ih =>
    unfold firstIllegal
    split
    · next h => simp [h, ih]
    · next h => simp [h]

/-- A configuration is accepted exactly when it has at most two levels, each legal (45_cache_hierarchy.md R191). -/
theorem configErrorLevel_eq_none {cfgs : List LevelConfig} :
    configErrorLevel cfgs = none ↔ cfgs.length ≤ 2 ∧ ∀ c ∈ cfgs, c.legal = true := by
  unfold configErrorLevel Config.maxLevels
  split
  · next h => simp only [reduceCtorEq, false_iff, not_and]; omega
  · next h => rw [firstIllegal_eq_none]; simp only [not_lt] at h; simp [h]

/-- An empty level is sound at any clock. -/
theorem emptyLevel_inv {c : LevelConfig} (h : c.legal = true) (clk : Nat) : (emptyLevel c).Inv clk := by
  refine ⟨h, by simp [emptyLevel], ?_, ?_, ?_, ?_, ?_⟩
  · intro row hr
    obtain rfl := List.eq_of_mem_replicate hr
    simp
  · intro row hr
    obtain rfl := List.eq_of_mem_replicate hr
    simp
  · intro r b hb
    by_cases hlt : r < c.numRows <;> simp [emptyLevel, List.getD_eq_getElem?_getD, hlt] at hb
  · intro row hr b hb
    obtain rfl := List.eq_of_mem_replicate hr
    simp at hb
  · simp [emptyLevel]

end Sys2Proof.Machine
end

