-- ==== Sys2Proof/Laws/PerInstr.lean ====
section
/-! SUPPORT. Per instruction: a well-formed instruction's word lies in its own row of spec/opcode_table.json. -/

namespace Sys2Proof.Laws

/-- The word of a well-formed instruction has the fixed bits of its row. -/
def RowMatch.Statement (i : Instr) : Prop :=
  i.wellFormed = true → rowMatches i.row.1 i.row.2 (encode i) = true

/-- A format RRR word keeps its class and function code under the mask of its rows. -/
theorem encodeRRR_masked (rA rB rC : Reg) (f : BitVec 4) : encodeRRR rA rB rC f &&& 0xE00F#16 = f.setWidth 16 := by
  unfold encodeRRR
  generalize regBits rA = a
  generalize regBits rB = b
  generalize regBits rC = c
  ext i hi
  simp only [BitVec.getElem_and, BitVec.getElem_cast, BitVec.getElem_append]
  interval_cases i <;> simp

/-- A format RRI word keeps its class under the class mask. -/
theorem encodeRRI_masked (op : BitVec 3) (rA rB : Reg) (imm7 : Imm7) :
    encodeRRI op rA rB imm7 &&& 0xE000#16 = op.setWidth 16 <<< 13 := by
  unfold encodeRRI
  generalize regBits rA = a
  generalize regBits rB = b
  ext i hi
  simp only [BitVec.getElem_and, BitVec.getElem_cast, BitVec.getElem_append]
  interval_cases i <;> simp

/-- A format J word keeps its class under the class mask. -/
theorem encodeJ_masked (op : BitVec 3) (imm13 : Imm13) : encodeJ op imm13 &&& 0xE000#16 = op.setWidth 16 <<< 13 := by
  unfold encodeJ
  ext i hi
  simp only [BitVec.getElem_and, BitVec.getElem_cast, BitVec.getElem_append]
  interval_cases i <;> simp

/-- A no-operation word keeps its class and function code under the mask of its rows. -/
theorem encodeNop_masked (ign : Ignored) (f : BitVec 4) : encodeNop ign f &&& 0xE00F#16 = f.setWidth 16 := by
  unfold encodeNop
  ext i hi
  simp only [BitVec.getElem_and, BitVec.getElem_cast, BitVec.getElem_append]
  interval_cases i <;> simp

/-- A word whose masked bits are the pattern lies in the row. -/
theorem rowMatches_of_eq {mask pattern w : Word} (h : w &&& mask = pattern) : rowMatches mask pattern w = true := by
  simp [rowMatches, h]

theorem RowMatch.add (rA rB rC : Reg) : RowMatch.Statement (.add rA rB rC) := fun _ =>
  rowMatches_of_eq ((encodeRRR_masked rA rB rC _).trans rfl)

theorem RowMatch.sub (rA rB rC : Reg) : RowMatch.Statement (.sub rA rB rC) := fun _ =>
  rowMatches_of_eq ((encodeRRR_masked rA rB rC _).trans rfl)

theorem RowMatch.or (rA rB rC : Reg) : RowMatch.Statement (.or rA rB rC) := fun _ =>
  rowMatches_of_eq ((encodeRRR_masked rA rB rC _).trans rfl)

theorem RowMatch.and (rA rB rC : Reg) : RowMatch.Statement (.and rA rB rC) := fun _ =>
  rowMatches_of_eq ((encodeRRR_masked rA rB rC _).trans rfl)

theorem RowMatch.slt (rA rB rC : Reg) : RowMatch.Statement (.slt rA rB rC) := fun _ =>
  rowMatches_of_eq ((encodeRRR_masked rA rB rC _).trans rfl)

theorem RowMatch.jr (rA : Reg) : RowMatch.Statement (.jr rA) := by
  unfold RowMatch.Statement
  revert rA
  decide

theorem RowMatch.j (imm13 : Imm13) : RowMatch.Statement (.j imm13) := fun _ =>
  rowMatches_of_eq ((encodeJ_masked _ imm13).trans rfl)

theorem RowMatch.jal (imm13 : Imm13) : RowMatch.Statement (.jal imm13) := fun _ =>
  rowMatches_of_eq ((encodeJ_masked _ imm13).trans rfl)

theorem RowMatch.addi (rA rB : Reg) (imm7 : Imm7) : RowMatch.Statement (.addi rA rB imm7) := fun _ =>
  rowMatches_of_eq ((encodeRRI_masked _ rA rB imm7).trans rfl)

theorem RowMatch.lw (rA rB : Reg) (imm7 : Imm7) : RowMatch.Statement (.lw rA rB imm7) := fun _ =>
  rowMatches_of_eq ((encodeRRI_masked _ rA rB imm7).trans rfl)

theorem RowMatch.sw (rA rB : Reg) (imm7 : Imm7) : RowMatch.Statement (.sw rA rB imm7) := fun _ =>
  rowMatches_of_eq ((encodeRRI_masked _ rA rB imm7).trans rfl)

theorem RowMatch.jeq (rA rB : Reg) (imm7 : Imm7) : RowMatch.Statement (.jeq rA rB imm7) := fun _ =>
  rowMatches_of_eq ((encodeRRI_masked _ rA rB imm7).trans rfl)

theorem RowMatch.slti (rA rB : Reg) (imm7 : Imm7) : RowMatch.Statement (.slti rA rB imm7) := fun _ =>
  rowMatches_of_eq ((encodeRRI_masked _ rA rB imm7).trans rfl)

theorem RowMatch.nopFunc0101 (ignored : Ignored) : RowMatch.Statement (.nopFunc0101 ignored) := fun _ =>
  rowMatches_of_eq ((encodeNop_masked ignored _).trans rfl)

theorem RowMatch.nopFunc0110 (ignored : Ignored) : RowMatch.Statement (.nopFunc0110 ignored) := fun _ =>
  rowMatches_of_eq ((encodeNop_masked ignored _).trans rfl)

theorem RowMatch.nopFunc0111 (ignored : Ignored) : RowMatch.Statement (.nopFunc0111 ignored) := fun _ =>
  rowMatches_of_eq ((encodeNop_masked ignored _).trans rfl)

theorem RowMatch.nopFunc1001 (ignored : Ignored) : RowMatch.Statement (.nopFunc1001 ignored) := fun _ =>
  rowMatches_of_eq ((encodeNop_masked ignored _).trans rfl)

theorem RowMatch.nopFunc1010 (ignored : Ignored) : RowMatch.Statement (.nopFunc1010 ignored) := fun _ =>
  rowMatches_of_eq ((encodeNop_masked ignored _).trans rfl)

theorem RowMatch.nopFunc1011 (ignored : Ignored) : RowMatch.Statement (.nopFunc1011 ignored) := fun _ =>
  rowMatches_of_eq ((encodeNop_masked ignored _).trans rfl)

theorem RowMatch.nopFunc1100 (ignored : Ignored) : RowMatch.Statement (.nopFunc1100 ignored) := fun _ =>
  rowMatches_of_eq ((encodeNop_masked ignored _).trans rfl)

theorem RowMatch.nopFunc1101 (ignored : Ignored) : RowMatch.Statement (.nopFunc1101 ignored) := fun _ =>
  rowMatches_of_eq ((encodeNop_masked ignored _).trans rfl)

theorem RowMatch.nopFunc1110 (ignored : Ignored) : RowMatch.Statement (.nopFunc1110 ignored) := fun _ =>
  rowMatches_of_eq ((encodeNop_masked ignored _).trans rfl)

theorem RowMatch.nopFunc1111 (ignored : Ignored) : RowMatch.Statement (.nopFunc1111 ignored) := fun _ =>
  rowMatches_of_eq ((encodeNop_masked ignored _).trans rfl)

theorem RowMatch.nopFunc1000Bit9 (ignored : Ignored) : RowMatch.Statement (.nopFunc1000Bit9 ignored) := by
  unfold RowMatch.Statement
  revert ignored
  decide

theorem RowMatch.nopFunc1000Bit8 (ignored : Ignored) : RowMatch.Statement (.nopFunc1000Bit8 ignored) := by
  unfold RowMatch.Statement
  revert ignored
  decide

theorem RowMatch.nopFunc1000Bit7 (ignored : Ignored) : RowMatch.Statement (.nopFunc1000Bit7 ignored) := by
  unfold RowMatch.Statement
  revert ignored
  decide

theorem RowMatch.nopFunc1000Bit6 (ignored : Ignored) : RowMatch.Statement (.nopFunc1000Bit6 ignored) := by
  unfold RowMatch.Statement
  revert ignored
  decide

theorem RowMatch.nopFunc1000Bit5 (ignored : Ignored) : RowMatch.Statement (.nopFunc1000Bit5 ignored) := by
  unfold RowMatch.Statement
  revert ignored
  decide

theorem RowMatch.nopFunc1000Bit4 (ignored : Ignored) : RowMatch.Statement (.nopFunc1000Bit4 ignored) := by
  unfold RowMatch.Statement
  revert ignored
  decide

end Sys2Proof.Laws
end

