-- ==== Sys2Proof/Tests/Slice0.lean ====
section
/-! SUPPORT. The model's own tests, and for each statement with hypotheses a state and operands that meet them. The
expected values are those of spec/95_test_vectors.md (its vector is named), or worked from the rule named. -/

namespace Sys2Proof.Tests

open Sys2Proof.Machine

/-! ### WellFormed: an ill-formed term for each check -/

theorem test_wf_bit9_refused : (Instr.nopFunc1000Bit9 0b111011111#9).wellFormed = false := by decide
theorem test_wf_bit8_refused : (Instr.nopFunc1000Bit8 0b000110000#9).wellFormed = false := by decide
theorem test_wf_bit7_refused : (Instr.nopFunc1000Bit7 0b000000111#9).wellFormed = false := by decide
theorem test_wf_bit6_refused : (Instr.nopFunc1000Bit6 0b000001100#9).wellFormed = false := by decide
theorem test_wf_bit5_refused : (Instr.nopFunc1000Bit5 0b000000001#9).wellFormed = false := by decide
theorem test_wf_bit4_refused : (Instr.nopFunc1000Bit4 0b111000000#9).wellFormed = false := by decide

/-! ### Decode: a word of every constructor, written from 30_encoding.md R81, R88, R90 (V1 to V9b among them) -/

theorem test_decode_add : decode 0b000_001_010_011_0000#16 = .add 1 2 3 := by decide
theorem test_decode_sub : decode 0b000_111_000_001_0001#16 = .sub 7 0 1 := by decide
theorem test_decode_or : decode 0b000_001_010_110_0010#16 = .or 1 2 6 := by decide
theorem test_decode_and : decode 0b000_100_010_101_0011#16 = .and 4 2 5 := by decide
theorem test_decode_slt : decode 0b000_010_001_100_0100#16 = .slt 2 1 4 := by decide
theorem test_decode_jr : decode 0b000_111_000_000_1000#16 = .jr 7 := by decide
theorem test_decode_j : decode 0b010_0000000000010#16 = .j 2#13 := by decide
theorem test_decode_jal : decode 0b011_1111111111111#16 = .jal 8191#13 := by decide
theorem test_decode_addi : decode 0b001_001_010_1111111#16 = .addi 1 2 0b1111111#7 := by decide
theorem test_decode_lw : decode 0b100_001_010_0000011#16 = .lw 1 2 3#7 := by decide
theorem test_decode_sw : decode 0b101_000_011_0010100#16 = .sw 0 3 20#7 := by decide
theorem test_decode_jeq : decode 0b110_001_010_1111110#16 = .jeq 1 2 0b1111110#7 := by decide
theorem test_decode_slti : decode 0b111_111_110_1000000#16 = .slti 7 6 0b1000000#7 := by decide
theorem test_decode_0101 : decode 0b000_001_010_011_0101#16 = .nopFunc0101 0b001010011#9 := by decide
theorem test_decode_0110 : decode 0b000_001_010_011_0110#16 = .nopFunc0110 0b001010011#9 := by decide
theorem test_decode_0111 : decode 0b000_001_010_011_0111#16 = .nopFunc0111 0b001010011#9 := by decide
theorem test_decode_1001 : decode 0b000_001_010_011_1001#16 = .nopFunc1001 0b001010011#9 := by decide
theorem test_decode_1010 : decode 0b000_001_010_011_1010#16 = .nopFunc1010 0b001010011#9 := by decide
theorem test_decode_1011 : decode 0b000_001_010_011_1011#16 = .nopFunc1011 0b001010011#9 := by decide
theorem test_decode_1100 : decode 0b000_001_010_011_1100#16 = .nopFunc1100 0b001010011#9 := by decide
theorem test_decode_1101 : decode 0b000_001_010_011_1101#16 = .nopFunc1101 0b001010011#9 := by decide
theorem test_decode_1110 : decode 0b000_001_010_011_1110#16 = .nopFunc1110 0b001010011#9 := by decide
theorem test_decode_1111 : decode 0b000_001_010_011_1111#16 = .nopFunc1111 0b001010011#9 := by decide
theorem test_decode_bit9 : decode 0b000_111_111_111_1000#16 = .nopFunc1000Bit9 0b111111111#9 := by decide
theorem test_decode_bit8 : decode 0b000_111_010_000_1000#16 = .nopFunc1000Bit8 0b111010000#9 := by decide
theorem test_decode_bit7 : decode 0b000_111_001_010_1000#16 = .nopFunc1000Bit7 0b111001010#9 := by decide
theorem test_decode_bit6 : decode 0b000_111_000_101_1000#16 = .nopFunc1000Bit6 0b111000101#9 := by decide
theorem test_decode_bit5 : decode 0b000_111_000_011_1000#16 = .nopFunc1000Bit5 0b111000011#9 := by decide
theorem test_decode_bit4 : decode 0b000_111_000_001_1000#16 = .nopFunc1000Bit4 0b111000001#9 := by decide

theorem test_table_word : decodeTableWord 16 0xA194 = some (.sw 0 3 20#7) := by decide

/-! ### Helpers -/

/-- The next state, if there is one. -/
def nextOf (o : Host.Outcome State Fault Refusal) : Option State :=
  match o with
  | .next t => some t
  | .fault _ => none
  | .refused _ => none

/-- A running state with these registers, `pc`, memory and cache, and the clock 0. -/
def st (regs : List (Reg × Word)) (pc : Word) (mem : Memory) (cache : List CacheLevel) : State :=
  regs.foldl (fun s r => writeReg s r.1 r.2) { State.reset with pc := pc, mem := mem, cache := cache }

/-- One step of a core with the instruction word in the cell at `pc` and no cache: register `d` and `pc` after it. -/
def regAfter (regs : List (Reg × Word)) (pc ir : Word) (d : Reg) : Option (Word × Word) :=
  (nextOf (step ((st regs pc [] []).withFetchWord 16 ir.toNat))).map (fun t => (t.regs[d], t.pc))

/-- As `regAfter`: `pc` and the run state. -/
def pcAfter (regs : List (Reg × Word)) (pc ir : Word) : Option (Word × RunState) :=
  (nextOf (step ((st regs pc [] []).withFetchWord 16 ir.toNat))).map (fun t => (t.pc, t.run))

/-- A level of size 4, one way, block size 2, with these rows. -/
def l1 (rows : List Row) : CacheLevel := ⟨⟨4, 1, 2⟩, rows⟩

/-- A level of size 16, two ways, block size 4, with these rows. -/
def l2 (rows : List Row) : CacheLevel := ⟨⟨16, 2, 4⟩, rows⟩

/-! ### One step of each instruction -/

theorem test_add_wraps_V10 : regAfter [(1, 0xFFFE), (2, 5)] 0 0x0530 3 = some (3, 1) := by decide
theorem test_add_reg0_V13 : regAfter [(1, 7), (2, 9)] 0 0x0500 0 = some (0, 1) := by decide
theorem test_sub_V15 : regAfter [(1, 1)] 0 0x00B1 3 = some (0xFFFF, 1) := by decide
theorem test_or_V17 : regAfter [(1, 0x00F0), (2, 0x0F0F)] 0 0x0562 6 = some (0x0FFF, 1) := by decide
theorem test_and_V18 : regAfter [(1, 0x00F0), (2, 0x0FF0)] 0 0x0553 5 = some (0x00F0, 1) := by decide
theorem test_slt_V19 : regAfter [(2, 1), (1, 0xFFFF)] 0 0x08C4 4 = some (1, 1) := by decide
theorem test_slt_V20 : regAfter [(2, 0xFFFF), (1, 1), (4, 9)] 0 0x08C4 4 = some (0, 1) := by decide
theorem test_nop_V22 : regAfter [(1, 1), (2, 2)] 4 0x000F 1 = some (1, 5) := by decide
theorem test_nop_V24 : pcAfter [(7, 100)] 4 0x1C18 = some (5, .running) := by decide
theorem test_nop_wraps_V25 : pcAfter [(7, 100)] 8191 0x1FFF = some (0, .running) := by decide
theorem test_jr_V27 : pcAfter [(7, 0x2005)] 11 0x1C08 = some (5, .running) := by decide
theorem test_jr_V29a : pcAfter [(7, 11)] 11 0x1C08 = some (11, .running) := by decide
theorem test_jeq_V34 : pcAfter [] 8190 0xC003 = some (2, .running) := by decide
theorem test_jeq_V36 : pcAfter [(1, 0xABCD), (2, 0xABCD)] 100 0xC540 = some (37, .running) := by decide
theorem test_j_V40 : pcAfter [] 5 0x4002 = some (2, .running) := by decide
theorem test_j_halts_V43 : pcAfter [] 8191 0x5FFF = some (8191, .halted) := by decide
theorem test_jal_V44 : regAfter [(7, 0xAAAA)] 2 0x6006 7 = some (3, 6) := by decide
theorem test_jal_V45 : regAfter [] 8191 0x6000 7 = some (0x2000, 0) := by decide
theorem test_addi_V50 : regAfter [(1, 5)] 0 0x24FF 1 = some (4, 1) := by decide
theorem test_addi_V54 : regAfter [] 0 0x20C0 1 = some (0xFFC0, 1) := by decide
theorem test_slti_V59 : regAfter [(1, 0xFFFE)] 0 0xE57F 2 = some (1, 1) := by decide
theorem test_slti_V58 : regAfter [(1, 0xFFFF), (2, 9)] 0 0xE505 2 = some (0, 1) := by decide
theorem test_lw_V67 : regAfter [] 5 0x8105 2 = some (0x8105, 6) := by decide

/-- V62. -/
theorem test_lw_probe_V62 :
    (nextOf (step (st [(1, 16)] 1 [(1, 0x8500), (16, 0x1111)] [l1 [[], []]]))).map
      (fun t => (t.regs[(2 : Reg)], t.cache, t.events)) =
    some (0x1111, [l1 [[⟨4, 0⟩], []]], [.access 1 .miss 1 16 0]) := by decide

/-- V68. -/
theorem test_sw_probe_V68 :
    (nextOf (step (st [(3, 1)] 3 [(3, 0xA194)] [l1 [[], []], l2 [[], []]]))).map
      (fun t => (t.mem, t.cache, t.events)) =
    some ([(3, 0xA194), (20, 1)], [l1 [[⟨5, 0⟩], []], l2 [[], [⟨2, 0⟩]]],
      [.access 1 .sw 3 20 0, .access 2 .sw 3 20 1]) := by decide

/-- V70: a stored 0 is not listed. -/
theorem test_sw_zero_V70 :
    (nextOf (step (st [] 3 [(3, 0xA014), (20, 0x7777)] []))).map (fun t => (t.mem, t.pc)) =
    some ([(3, 0xA014)], 4) := by decide

/-! ### Cache, launch and status -/

theorem test_decompose_V80 : decompose ⟨64, 2, 8⟩ 8191 = (3, 255) := by decide
theorem test_decompose_V81 : decompose ⟨6, 1, 2⟩ 8191 = (0, 1365) := by decide

/-- S6, the fourth access: the least recent way is replaced. -/
theorem test_lru_S6 :
    (access ⟨⟨4, 2, 1⟩, [[⟨16, 2⟩, ⟨17, 1⟩], []]⟩ 36 3).level.rows = [[⟨16, 2⟩, ⟨18, 3⟩], []] := by decide

/-- V86, the access at clock 2: a hit at level 1 leaves level 2 alone. -/
theorem test_read_hit_stops_V86 :
    readWalk 1 [⟨⟨2, 2, 1⟩, [[⟨40, 0⟩, ⟨41, 1⟩]]⟩, ⟨⟨2, 2, 1⟩, [[⟨40, 0⟩, ⟨41, 1⟩]]⟩] 40 2 2 =
    ⟨[⟨⟨2, 2, 1⟩, [[⟨40, 2⟩, ⟨41, 1⟩]]⟩, ⟨⟨2, 2, 1⟩, [[⟨40, 0⟩, ⟨41, 1⟩]]⟩], [.access 1 .hit 2 40 0]⟩ := by decide

theorem test_config_V93 : (resetRelease [] [⟨64, 2, 7⟩]).run = .failed (.configError 1) := by decide
theorem test_config_V95 : (resetRelease [] [⟨0, 1, 1⟩]).run = .failed (.configError 1) := by decide
theorem test_config_V97 : (resetRelease [] [⟨4, 1, 2⟩, ⟨16, 2, 3⟩]).run = .failed (.configError 2) := by decide
theorem test_config_V98 :
    (resetRelease [] [⟨4, 1, 2⟩, ⟨4, 1, 2⟩, ⟨4, 1, 2⟩]).run = .failed (.configError 0) := by decide
theorem test_config_V99 : (resetRelease [] [⟨16, 2, 4⟩, ⟨4, 1, 2⟩]).run = .running := by decide

/-- S9. -/
theorem test_report_S9 : (resetRelease [] [⟨64, 2, 8⟩]).events = [.config 1 64 2 8 4] := by decide

/-! ### Hypotheses of the statements are met -/

theorem reset_inv : State.reset.Inv :=
  ⟨by decide, by decide, by decide, by decide, fun lv h => absurd h List.not_mem_nil⟩

theorem legal_64_2_8 : LegalLevel ⟨64, 2, 8⟩ := ⟨by decide, by decide, by decide, by decide⟩

theorem shaped_l1 (a b : Row) : Shaped (l1 [a, b]) := by
  refine ⟨⟨?_, ?_, ?_, ?_⟩, ?_⟩ <;> simp [l1]

theorem shaped_l2 (a b : Row) : Shaped (l2 [a, b]) := by
  refine ⟨⟨?_, ?_, ?_, ?_⟩, ?_⟩ <;> simp [l2]

theorem not_hits {lv : CacheLevel} {addr : Nat} (h : (access lv addr 0).hit = false) : ¬ Hits lv addr :=
  fun g => absurd ((access_hit lv addr 0).2 g) (by simp [h])

/-- `DecodeEncodeRoundTrip`: one with a check and one without. -/
theorem test_witness_roundTrip :
    (Instr.nopFunc1000Bit4 0b111000001#9).wellFormed = true ∧ (Instr.lw 7 0 0b1111111#7).wellFormed = true := by decide

/-- `OpcodeRowsPartitionWords`. -/
theorem test_witness_row : (0xE3FF, 0x0018) ∈ opcodeRows ∧ 0x1C18#16 &&& 0xE3FF#16 = 0x0018#16 := by decide

/-- `JrNeedsZeroBits`. -/
theorem test_witness_jrBits : (0x1C18#16).extractLsb' 13 3 = 0#3 ∧ (0x1C18#16).extractLsb' 0 4 = 8#4 ∧
    (0x1C18#16).extractLsb' 4 6 ≠ 0#6 := by decide

/-- `StepRunsDecodedInstruction`, `RunningStepAlwaysCompletes` (first clause), `FetchBypassesCache`: a running core whose
instruction, `add`, is neither `lw` nor `sw`. -/
theorem test_witness_running : State.reset.run = .running ∧
    decode (Memory.read State.reset.mem (State.reset.pc.toNat % 8192)) = .add 0 0 0 := by decide

/-- `RunningStepAlwaysCompletes` (second and fourth clause). -/
theorem test_witness_faultAndNext :
    step { State.reset with run := .failed .imageError } = .fault .imageError ∧
    (nextOf (step State.reset)).isSome = true := ⟨rfl, by decide⟩

/-- `StoppedCoreNeverChanges`: halted, and held in reset. -/
theorem test_witness_stopped :
    ({ State.reset with run := .halted } : State).run = .halted ∧ (assertReset State.reset).run = .inReset := by decide

/-- `RefusedLaunchStopsByName`, both clauses, and `RefusedLaunchNamesFirstError` for the last clause. -/
theorem test_witness_refused : (resetRelease [] [⟨64, 2, 7⟩]).run = .failed (.configError 1) ∧
    ({ State.reset with run := .failed .imageError } : State).run = .failed .imageError := by decide

/-- `OnlySelfJumpHalts`, halting: V43a. -/
theorem test_witness_halts : (State.reset.withFetchWord 16 0x4000).run = .running ∧
    (nextOf (step (State.reset.withFetchWord 16 0x4000))).map (·.run) = some .halted := by decide

/-- `OnlySelfJumpHalts`, running on: V40 from cell 0. -/
theorem test_witness_runsOn : (State.reset.withFetchWord 16 0x4002).run = .running ∧
    (nextOf (step (State.reset.withFetchWord 16 0x4002))).map (·.run) = some .running := by decide

/-- `ClockCountsInstructions`, with one step. -/
theorem test_witness_clock :
    (nextOf (core.run 1 State.reset)).map (fun t : State => (t.run, t.clk)) = some (.running, 1) := by decide

/-- `StoredWordExecutesNext`: `sw $1,1($0)` in cell 0. -/
theorem test_witness_storedNext :
    let s := st [(1, 0x2107)] 0 [(0, 0xA081)] []
    s.run = .running ∧ decode (Memory.read s.mem (s.pc.toNat % 8192)) = .sw 0 1 1#7 ∧
      eaNum s.regs[(0 : Reg)] 1#7 = (s.pc.toNat + 1) % 8192 := by decide

/-- `StoredWordExecutesNext`, at the top of memory: `sw $1,0($0)` in cell 8191. -/
theorem test_witness_storedNextWraps :
    let s := st [(1, 0x2107)] 8191 [(8191, 0xA080)] []
    s.run = .running ∧ decode (Memory.read s.mem (s.pc.toNat % 8192)) = .sw 0 1 0#7 ∧
      eaNum s.regs[(0 : Reg)] 0#7 = (s.pc.toNat + 1) % 8192 := by decide

/-- `StepChangesOnlyDestination`: a step that changes register 1, and one that changes a cell (V71). -/
theorem test_witness_changes :
    (nextOf (step (State.reset.withFetchWord 16 0x20FF))).map (fun t => t.regs[(1 : Reg)]) = some 0xFFFF ∧
    (nextOf (step (st [(2, 0x1234)] 3 [(3, 0xA17F)] []))).map (fun t => Memory.read t.mem 8191) = some 0x1234 := by
  decide

/-- `JumpResult`, self-jump and not, at the boundary cells. -/
theorem test_witness_jump : (0#13).toNat = State.reset.pc.toNat ∧ (8191#13).toNat ≠ State.reset.pc.toNat := by decide

/-- `JeqResult`, taken and not taken. -/
theorem test_witness_jeq : (st [(1, 5)] 0 [] []).regs[(1 : Reg)] ≠ (st [(1, 5)] 0 [] []).regs[(0 : Reg)] ∧
    (st [(1, 5)] 0 [] []).regs[(2 : Reg)] = (st [(1, 5)] 0 [] []).regs[(0 : Reg)] := by decide

/-- `LoadProbeWalk`, `StoreProbeWalk`, `NoLevelsNoProbe`: no level. -/
theorem test_witness_noLevel : State.reset.cache = [] ∧ ∀ lv ∈ State.reset.cache, Shaped lv :=
  ⟨rfl, fun _ h => absurd h List.not_mem_nil⟩

/-- `LoadProbeWalk`, `StoreProbeWalk`: one level, the address 8191 misses, 16 hits. -/
theorem test_witness_oneLevel :
    (∀ lv ∈ [l1 [[⟨4, 0⟩], []]], Shaped lv) ∧ eaNum 0 0b1111111#7 = 8191 ∧ eaNum 16 0#7 = 16 ∧
    ¬ Hits (l1 [[⟨4, 0⟩], []]) 8191 ∧ Hits (l1 [[⟨4, 0⟩], []]) 16 :=
  ⟨by simpa using shaped_l1 _ _, by decide, by decide, not_hits (by decide), (access_hit _ _ 0).1 (by decide)⟩

/-- `LoadProbeWalk`, `StoreProbeWalk`: two levels; 20 hits at level 1, 16 misses there and hits at level 2, 8191
misses at both. -/
theorem test_witness_twoLevels :
    (∀ lv ∈ [l1 [[⟨5, 1⟩], []], l2 [[⟨2, 0⟩], []]], Shaped lv) ∧
    Hits (l1 [[⟨5, 1⟩], []]) 20 ∧ ¬ Hits (l1 [[⟨5, 1⟩], []]) 16 ∧ Hits (l2 [[⟨2, 0⟩], []]) 16 ∧
    ¬ Hits (l1 [[⟨5, 1⟩], []]) 8191 ∧ ¬ Hits (l2 [[⟨2, 0⟩], []]) 8191 := by
  refine ⟨?_, (access_hit _ _ 0).1 (by decide), not_hits (by decide), (access_hit _ _ 0).1 (by decide),
    not_hits (by decide), not_hits (by decide)⟩
  simpa using ⟨shaped_l1 [⟨5, 1⟩] [], shaped_l2 [⟨2, 0⟩] []⟩

/-- `ExtensionValues`: both sides of the sign. -/
theorem test_witness_sign : (63#7).getLsbD 6 = false ∧ (64#7).getLsbD 6 = true := by decide

/-- `CellsModulo8192`: a destination other than register 0. -/
theorem test_witness_notReg0 : (7 : Reg) ≠ 0 := by decide

/-- `AddressDecomposition`: both ends of the addresses. -/
theorem test_witness_decompose : LegalLevel ⟨64, 2, 8⟩ ∧ 0 < 8192 ∧ 8191 < 8192 := ⟨legal_64_2_8, by decide, by decide⟩

/-- `ScanFindsTagOrVictim`: a row with the tag 17, without the tag 18, and the empty row. -/
theorem test_witness_scan :
    (([⟨16, 2⟩, ⟨17, 1⟩] : Row).map (·.tag)).Nodup ∧ ([⟨16, 2⟩, ⟨17, 1⟩] : Row)[1]? = some ⟨17, 1⟩ ∧
    (∀ b ∈ ([⟨16, 2⟩, ⟨17, 1⟩] : Row), b.tag ≠ 18) ∧ ([⟨16, 2⟩, ⟨17, 1⟩] : Row) ≠ [] ∧
    (([] : Row).map (·.tag)).Nodup := by decide

/-- `HitRestampsInPlace`: a hit, another row, and an empty row, whose first access to tag 0 misses. -/
theorem test_witness_hit : Shaped (l1 [[⟨4, 0⟩], []]) ∧ (access (l1 [[⟨4, 0⟩], []]) 16 1).hit = true ∧
    1 ≠ rowOf (l1 [[⟨4, 0⟩], []]).cfg 16 ∧
    (l1 [[⟨4, 0⟩], []]).rows.getD (rowOf (l1 [[⟨4, 0⟩], []]).cfg 2) [] = [] ∧
    (access (l1 [[⟨4, 0⟩], []]) 2 0).hit = false := ⟨shaped_l1 _ _, by decide, by decide, by decide, by decide⟩

/-- `MissAllocatesOrEvicts`: a miss in a full row. -/
theorem test_witness_fullRow : Shaped (l1 [[⟨4, 0⟩], []]) ∧ ¬ Hits (l1 [[⟨4, 0⟩], []]) 20 ∧
    ((l1 [[⟨4, 0⟩], []]).rows.getD (rowOf (l1 [[⟨4, 0⟩], []]).cfg 20) []).length = (l1 [[⟨4, 0⟩], []]).cfg.assoc :=
  ⟨shaped_l1 _ _, not_hits (by decide), by decide⟩

/-- `LruEvictsLeastRecentlyUsed`: the addresses of S6. -/
theorem test_witness_lru : (emptyLevel ⟨4, 2, 1⟩).Inv 0 ∧ (emptyLevel ⟨4, 2, 1⟩).cfg.assoc = 2 ∧
    rowOf ⟨4, 2, 1⟩ 34 = rowOf ⟨4, 2, 1⟩ 32 ∧ rowOf ⟨4, 2, 1⟩ 36 = rowOf ⟨4, 2, 1⟩ 32 ∧
    tagOf ⟨4, 2, 1⟩ 32 ≠ tagOf ⟨4, 2, 1⟩ 34 ∧ tagOf ⟨4, 2, 1⟩ 36 ≠ tagOf ⟨4, 2, 1⟩ 32 ∧
    tagOf ⟨4, 2, 1⟩ 36 ≠ tagOf ⟨4, 2, 1⟩ 34 :=
  ⟨emptyLevel_inv (by decide) 0, by decide, by decide, by decide, by decide, by decide, by decide⟩

/-- `DirectMappedAlternationMisses`: the addresses of S7. -/
theorem test_witness_directMapped : (emptyLevel ⟨2, 1, 1⟩).Inv 0 ∧ (emptyLevel ⟨2, 1, 1⟩).cfg.assoc = 1 ∧
    rowOf ⟨2, 1, 1⟩ 34 = rowOf ⟨2, 1, 1⟩ 32 ∧ tagOf ⟨2, 1, 1⟩ 32 ≠ tagOf ⟨2, 1, 1⟩ 34 :=
  ⟨emptyLevel_inv (by decide) 0, by decide, by decide, by decide⟩

/-- `OutputOnlyGrows`: a step that emits at both levels is `test_sw_probe_V68`; here it is a next state. -/
theorem test_witness_output :
    (nextOf (step (st [(3, 1)] 3 [(3, 0xA194)] [l1 [[], []], l2 [[], []]]))).map (fun t => t.events[1]?) =
      some (some (.access 2 .sw 3 20 1)) := by decide

/-- `LaunchedStateSound`, `ReleaseGivesResetValues`: a word and a level. -/
theorem test_witness_launch : ([0x4000] : List Word).length ≤ 8192 ∧ ([⟨64, 2, 8⟩] : List LevelConfig).length ≤ 2 ∧
    ∀ c ∈ ([⟨64, 2, 8⟩] : List LevelConfig), LegalLevel c :=
  ⟨by decide, by decide, by simpa using legal_64_2_8⟩

/-- `StepKeepsInvariant`, `StepKeepsConfiguration`. -/
theorem test_witness_step : State.reset.Inv ∧ ∃ t, step State.reset = .next t := ⟨reset_inv, _, rfl⟩

/-- `CacheNeverChangesResults`: two states with different caches and clocks, and a run of one. -/
theorem test_witness_sameView :
    SameProgramView State.reset { State.reset with cache := [l1 [[], []]], clk := 5 } ∧
    ∃ t, core.run 1 State.reset = .next t := ⟨⟨rfl, rfl, rfl, rfl⟩, _, rfl⟩

/-- `RefusedLaunchNamesFirstError`: an image one word too long. -/
theorem test_witness_longImage : 8192 < (List.replicate 8193 (0 : Word)).length := by
  rw [List.length_replicate]; decide

/-- `RefusedLaunchNamesFirstError`: three levels, and a second level that is the first illegal one (V97). -/
theorem test_witness_illegal : 2 < ([⟨4, 1, 2⟩, ⟨4, 1, 2⟩, ⟨4, 1, 2⟩] : List LevelConfig).length ∧
    ([⟨4, 1, 2⟩, ⟨16, 2, 3⟩] : List LevelConfig)[1]? = some ⟨16, 2, 3⟩ ∧ ¬ LegalLevel ⟨16, 2, 3⟩ ∧
    LegalLevel ⟨4, 1, 2⟩ :=
  ⟨by decide, rfl, fun h => absurd h.2.2.2 (by decide), ⟨by decide, by decide, by decide, by decide⟩⟩

/-- `ReleaseGivesResetValues`: a full image and a legal level; `test_witness_launch` has a short image. -/
theorem test_witness_release : (List.replicate 8192 (0 : Word)).length ≤ 8192 ∧
    ([⟨64, 2, 8⟩] : List LevelConfig).length ≤ 2 ∧ ∀ c ∈ ([⟨64, 2, 8⟩] : List LevelConfig), LegalLevel c :=
  ⟨List.length_replicate.le, by decide, by simpa using legal_64_2_8⟩

/-- `StatusFollowsRunState`: a halted core, a running core and a configuration error. -/
theorem test_witness_status : ({ State.reset with run := .halted } : State).run = .halted ∧
    State.reset.run = .running ∧ (resetRelease [] [⟨0, 1, 1⟩]).run = .failed (.configError 1) := by decide

end Sys2Proof.Tests
end

section
/-! PROOFS. The extensions `sext_7` and `zext_13` (00_scope.md R14). -/

namespace Sys2Proof.Machine

/-- Bit 6, the sign of a 7-bit value, splits `0..127` at 64. -/
theorem imm7_bit6_eq (v : Imm7) : v.getLsbD 6 = decide (64 ≤ v.toNat) :=
  (BitVec.msb_eq_getLsbD_last v).symm.trans (BitVec.msb_eq_decide v)

/-- Sign extension keeps the signed reading of the 7-bit value. -/
theorem sext7_toInt (v : Imm7) :
    (sext7 v).toInt = if v.toNat < 64 then (v.toNat : Int) else (v.toNat : Int) - 128 := by
  have hkeep : (sext7 v).toInt = v.toInt := BitVec.toInt_signExtend_of_le (by decide)
  rw [hkeep, BitVec.toInt_eq_toNat_cond]
  split <;> split <;> omega

theorem zext13_toNat (v : Imm13) : (zext13 v).toNat = v.toNat :=
  absoluteTarget_toNat v

/-- Settles O33: bit 6 says which case of `sextNum` applies, and each extension keeps its reading. -/
theorem extensionValues : Obligations.ExtensionValues := by
  refine ⟨fun v => ⟨fun hclear => ?_, fun hset => ?_, sext7_toInt v⟩,
    fun v => ⟨zext13_toNat v, v.isLt⟩⟩
  · rw [imm7_bit6_eq, decide_eq_false_iff_not, Nat.not_le] at hclear
    rw [sext7_toNat, sextNum, if_pos hclear]
  · rw [imm7_bit6_eq, decide_eq_true_iff, ← Nat.not_lt] at hset
    rw [sext7_toNat, sextNum, if_neg hset]

end Sys2Proof.Machine
end

section
/-! PROOFS. The state between instructions (10_state.md): its reset values, the frame of a step, the invariant, and
the independence of the program from cache, clock and output. -/

namespace Sys2Proof.Machine

/-! ### What a body does to the cache -/

/-- The level `old` after an instruction at clock `clk` whose address is `addr`: untouched, or accessed once. -/
def VisitedAtMostOnce (addr clk : Nat) (old new : CacheLevel) : Prop :=
  new = old ∨ new = (access old addr clk).level

theorem VisitedAtMostOnce.cfg_eq {addr clk : Nat} {old new : CacheLevel} (h : VisitedAtMostOnce addr clk old new) :
    new.cfg = old.cfg := by
  rcases h with rfl | rfl <;> rfl

theorem VisitedAtMostOnce.inv {addr clk : Nat} {old new : CacheLevel} (h : VisitedAtMostOnce addr clk old new)
    (haddr : addr < 8192) (hold : old.Inv clk) : new.Inv (clk + 1) := by
  rcases h with rfl | rfl
  · exact hold.later
  · exact access_inv hold haddr

theorem visitedAtMostOnce_refl (addr clk : Nat) (levels : List CacheLevel) :
    List.Forall₂ (VisitedAtMostOnce addr clk) levels levels :=
  List.forall₂_same.2 fun _ _ => .inl rfl

/-- A body visits every level at most once, all at one address of memory. -/
theorem BodyResult.cache_visited {s u : State} (h : BodyResult s u) :
    ∃ addr < 8192, List.Forall₂ (VisitedAtMostOnce addr s.clk) s.cache u.cache := by
  rcases h with rfl | ⟨d, v, rfl⟩ | ⟨d, ea, hea, rfl⟩ | ⟨ea, v, hea, rfl⟩
  · exact ⟨0, by decide, visitedAtMostOnce_refl 0 _ _⟩
  · exact ⟨0, by decide, visitedAtMostOnce_refl 0 _ _⟩
  · exact ⟨ea, hea, readWalk_levels 1 s.cache ea s.clk s.pc⟩
  · exact ⟨ea, hea, (writeWalk_levels 1 s.cache ea s.clk s.pc).imp fun _ _ => .inr⟩

/-- Visits keep the configurations (10_state.md R31). -/
theorem visited_cfgs_eq {addr clk : Nat} {old new : List CacheLevel}
    (h : List.Forall₂ (VisitedAtMostOnce addr clk) old new) : new.map (·.cfg) = old.map (·.cfg) := by
  induction h with
  | nil => rfl
  | cons hvisit _ ih => rw [List.map_cons, List.map_cons, hvisit.cfg_eq, ih]

/-- Visits at the current clock keep every level sound for the next one (10_state.md R35). -/
theorem visited_levels_inv {addr clk : Nat} {old new : List CacheLevel} (haddr : addr < 8192)
    (h : List.Forall₂ (VisitedAtMostOnce addr clk) old new) (hold : ∀ lv ∈ old, lv.Inv clk) :
    ∀ lv ∈ new, lv.Inv (clk + 1) := by
  induction h with
  | nil => exact fun _ hlv => absurd hlv List.not_mem_nil
  | cons hvisit _ ih =>
    obtain ⟨hhead, htail⟩ := List.forall_mem_cons.1 hold
    exact List.forall_mem_cons.2 ⟨hvisit.inv haddr hhead, ih htail⟩

/-! ### The invariant -/

/-- The common end after a body makes a state between instructions again. -/
theorem BodyResult.retire_inv {s u : State} (h : BodyResult s u) (hs : s.Inv) {npc : Word} (hpc : npc.toNat < 8192)
    (halt : Bool) : (retire u npc halt).Inv := by
  obtain ⟨addr, haddr, hvisited⟩ := h.cache_visited
  obtain ⟨-, hclk, -⟩ := h.control
  refine ⟨?reg0, hpc, h.mem_wf hs.memWf, ?levelCount, ?levels⟩
  case reg0 => rw [retire_get, if_pos rfl]
  case levelCount => rw [retire_cache, ← hvisited.length_eq]; exact hs.levelCount
  case levels => rw [retire_cache, retire_clk, hclk]; exact visited_levels_inv haddr hvisited hs.levels

theorem exec_keeps_inv {i : Instr} {s t : State} (hs : s.Inv) (h : exec i s = .next t) : t.Inv := by
  obtain ⟨u, npc, halt, hexec, hbody, hpc, -⟩ := exec_spec i s
  obtain rfl : retire u npc halt = t := Host.Outcome.next.inj (hexec.symm.trans h)
  exact hbody.retire_inv hs hpc halt

/-- Settles O44: an instruction is a body and the common end, and a body visits each level at most once. -/
theorem stepKeepsInvariant : Obligations.StepKeepsInvariant := by
  intro s t hs hstep
  rcases step_next_cases hstep with ⟨-, hexec⟩ | ⟨-, rfl⟩
  · exact exec_keeps_inv hs hexec
  · exact hs

theorem exec_keeps_cfgs {i : Instr} {s t : State} (h : exec i s = .next t) :
    t.cache.map (·.cfg) = s.cache.map (·.cfg) := by
  obtain ⟨u, npc, halt, hexec, hbody, -⟩ := exec_spec i s
  obtain rfl : retire u npc halt = t := Host.Outcome.next.inj (hexec.symm.trans h)
  obtain ⟨_, -, hvisited⟩ := hbody.cache_visited
  exact visited_cfgs_eq hvisited

/-- Settles O45: an access changes rows only. -/
theorem stepKeepsConfiguration : Obligations.StepKeepsConfiguration := by
  intro s t hstep
  rcases step_next_cases hstep with ⟨-, hexec⟩ | ⟨-, rfl⟩
  · exact exec_keeps_cfgs hexec
  · rfl

/-- Settles O42: every clause is about a literal of the reset state, and it has no cache level. -/
theorem resetStateSound : Obligations.ResetStateSound := by
  refine ⟨⟨?reg0, ?pcRange, reset_mem_wf, ?levelCount, ?levels⟩, ?noError⟩
  case reg0 => rfl
  case pcRange => decide
  case levelCount => decide
  case levels => exact fun _ hlv => absurd hlv List.not_mem_nil
  case noError => exact fun _ hfailed => nomatch hfailed

/-! ### The program never sees cache, clock or output (10_state.md R36) -/

/-- The fetched word is a function of memory and `pc`. -/
theorem SameProgramView.fetch_eq {s₁ s₂ : State} (h : SameProgramView s₁ s₂) : fetch s₁ = fetch s₂ := by
  obtain ⟨-, hpc, hmem, -⟩ := h
  unfold fetch memRead
  rw [hpc, hmem]

/-- Every meaning computes registers, `pc`, memory and run state from those four alone: with these equal, the two
results agree on them by computation, whatever the probes do. -/
theorem exec_sameProgramView (i : Instr) {s₁ s₂ : State} (h : SameProgramView s₁ s₂) :
    ∃ t₁ t₂, exec i s₁ = .next t₁ ∧ exec i s₂ = .next t₂ ∧ SameProgramView t₁ t₂ := by
  obtain ⟨regs, pc, mem, run, clk₁, cache₁, events₁⟩ := s₁
  obtain ⟨_, _, _, _, clk₂, cache₂, events₂⟩ := s₂
  obtain ⟨rfl, rfl, rfl, rfl⟩ := h
  cases i <;> exact ⟨_, _, rfl, rfl, rfl, rfl, rfl, rfl⟩

/-- A step commutes with the view of the program. -/
theorem step_sameProgramView {s₁ s₂ t₁ : State} (h : SameProgramView s₁ s₂) (hstep : step s₁ = .next t₁) :
    ∃ t₂, step s₂ = .next t₂ ∧ SameProgramView t₁ t₂ := by
  have ⟨_, _, _, hrun⟩ := h
  rcases step_next_cases hstep with ⟨hrunning, hexec⟩ | ⟨hstopped, rfl⟩
  · obtain ⟨t₁', t₂, h₁, h₂, hview⟩ := exec_sameProgramView (decode (fetch s₁)) h
    obtain rfl : t₁' = t₁ := Host.Outcome.next.inj (h₁.symm.trans hexec)
    rw [h.fetch_eq] at h₂
    exact ⟨t₂, (step_of_running (hrun ▸ hrunning)).trans h₂, hview⟩
  · rcases hstopped with hhalted | hreset
    · exact ⟨s₂, step_of_halted (hrun ▸ hhalted), h⟩
    · exact ⟨s₂, step_of_inReset (hrun ▸ hreset), h⟩

/-- Settles O46, by induction on the number of steps. -/
theorem cacheNeverChangesResults : Obligations.CacheNeverChangesResults := by
  intro k
  induction k with
  | zero =>
    intro s₁ s₂ t₁ hview hrun
    obtain rfl : s₁ = t₁ := Host.Outcome.next.inj hrun
    exact ⟨s₂, rfl, hview⟩
  | succ k ih =>
    intro s₁ s₂ t₁ hview hrun
    obtain ⟨m₁, hstep₁, hrest₁⟩ := run_succ_next.1 hrun
    obtain ⟨m₂, hstep₂, hmid⟩ := step_sameProgramView hview hstep₁
    obtain ⟨t₂, hrest₂, hend⟩ := ih m₁ m₂ t₁ hmid hrest₁
    exact ⟨t₂, run_succ_next.2 ⟨m₂, hstep₂, hrest₂⟩, hend⟩

/-! ### The frame of an instruction (10_state.md R23, 20_memory.md R52) -/

/-- The registers of `u` are those of `s`, but for a value in the destination register of `i`. -/
def WritesDestOnly (i : Instr) (s u : State) : Prop :=
  u.regs = s.regs ∨ ∃ d v, destOf i = some d ∧ u.regs = s.regs.set d v

/-- The memory of `u` is that of `s`, but for the cell a store `i` addresses. -/
def StoresOnly (i : Instr) (s u : State) : Prop :=
  u.mem = s.mem ∨
  ∃ rA rB imm7, i = .sw rA rB imm7 ∧ u.mem = (memWrite s (effectiveAddr s.regs[rA] imm7) s.regs[rB]).mem

/-- What an instruction writes before its common end. -/
theorem exec_frame (i : Instr) (s : State) :
    ∃ u npc halt, exec i s = .next (retire u npc halt) ∧ WritesDestOnly i s u ∧ StoresOnly i s u := by
  cases i
  case sw rA rB imm7 => exact ⟨_, _, _, rfl, .inl rfl, .inr ⟨rA, rB, imm7, rfl, rfl⟩⟩
  case add | sub | or | and | slt | addi | slti | jal | lw =>
    exact ⟨_, _, _, rfl, .inr ⟨_, _, rfl, rfl⟩, .inl rfl⟩
  all_goals exact ⟨s, _, _, rfl, .inl rfl, .inl rfl⟩

/-- A register other than 0 that the whole instruction changed is its destination. -/
theorem WritesDestOnly.destOf_of_changed {i : Instr} {s u : State} (h : WritesDestOnly i s u) {npc : Word}
    {halt : Bool} {r : Reg} (hr : r ≠ 0) (hne : (retire u npc halt).regs[r] ≠ s.regs[r]) : destOf i = some r := by
  rw [retire_get, if_neg hr] at hne
  rcases h with hsame | ⟨d, v, hdest, hset⟩
  · exact absurd (by rw [hsame]) hne
  · have hrd : r = d := by
      by_contra hrd
      rw [hset, regs_set_get, if_neg hrd] at hne
      exact hne rfl
    rw [hdest, hrd]

/-- A cell that changed is the one the store addresses. -/
theorem StoresOnly.addr_of_changed {i : Instr} {s u : State} (h : StoresOnly i s u) {a : Nat}
    (hne : Memory.read u.mem a ≠ Memory.read s.mem a) :
    ∃ rA rB imm7, i = .sw rA rB imm7 ∧ a = eaNum s.regs[rA] imm7 := by
  rcases h with hsame | ⟨rA, rB, imm7, hi, hstore⟩
  · exact absurd (by rw [hsame]) hne
  · refine ⟨rA, rB, imm7, hi, ?_⟩
    by_contra ha
    rw [eaNum, ← effectiveAddr_eq] at ha
    rw [hstore, memWrite_mem, cellIndex_effectiveAddr, Memory.read_write, if_neg ha] at hne
    exact hne rfl

/-- Settles O15, by the frame of the fetched instruction. -/
theorem stepChangesOnlyDestination : Obligations.StepChangesOnlyDestination := by
  intro s t hrunning hstep
  obtain ⟨u, npc, halt, hexec, hregs, hmem⟩ := exec_frame (decode (fetch s)) s
  obtain rfl : retire u npc halt = t :=
    Host.Outcome.next.inj (hexec.symm.trans ((step_of_running hrunning).symm.trans hstep))
  refine ⟨?_, fun i hi hne => hregs.destOf_of_changed hi hne, fun a hne => hmem.addr_of_changed hne⟩
  rw [retire_get, if_pos rfl]

/-! ### The release of reset (10_state.md R38, 70_reset_and_hazards.md R281) -/

/-- An accepted launch: the reset values, the image, empty levels and the report. -/
theorem resetRelease_of_accepted {image : List Word} {cfgs : List LevelConfig} (himage : image.length ≤ 8192)
    (hcount : cfgs.length ≤ 2) (hlegal : ∀ c ∈ cfgs, LegalLevel c) :
    resetRelease image cfgs =
      { State.reset with
        mem := Memory.ofImage image, cache := cfgs.map emptyLevel, events := configReport 1 cfgs } := by
  have hok : configErrorLevel cfgs = none :=
    configErrorLevel_eq_none.2 ⟨hcount, fun c hc => (LevelConfig.legal_iff c).2 (hlegal c hc)⟩
  have hfits : ¬ Config.memCells < image.length := Nat.not_lt.2 himage
  unfold resetRelease
  rw [if_neg hfits, hok]

theorem configReport_length (n : Nat) (cfgs : List LevelConfig) : (configReport n cfgs).length = cfgs.length := by
  induction cfgs generalizing n with
  | nil => rfl
  | cons c rest ih => rw [configReport, List.length_cons, List.length_cons, ih]

/-- The record of the level at position `k` of a report that counts from `n` (46_interfaces_and_log.md R235). -/
theorem configReport_getElem? (n : Nat) {cfgs : List LevelConfig} {k : Nat} {c : LevelConfig}
    (h : cfgs[k]? = some c) : (configReport n cfgs)[k]? = some (.config (n + k) c.size c.assoc c.bsize c.numRows) := by
  induction cfgs generalizing n k with
  | nil => cases h
  | cons d rest ih =>
    cases k with
    | zero => cases h; rfl
    | succ k =>
      rw [configReport, List.getElem?_cons_succ, ih (n + 1) h]
      congr 2
      omega

/-- Every level that a release makes has its number of rows, all empty. -/
theorem emptyLevel_rows (c : LevelConfig) :
    (emptyLevel c).rows.length = c.numRows ∧ ∀ row ∈ (emptyLevel c).rows, row = [] :=
  ⟨List.length_replicate, fun _ hrow => List.eq_of_mem_replicate hrow⟩

/-- Settles O49: one clause per field of the accepted launch. -/
theorem releaseGivesResetValues : Obligations.ReleaseGivesResetValues := by
  intro image cfgs himage hcount hlegal
  rw [resetRelease_of_accepted himage hcount hlegal]
  refine ⟨?regs, rfl, rfl, rfl, fun a _ => Memory.read_ofImage image a, ?cfgs, ?rows,
    configReport_length 1 cfgs, ?report⟩
  case regs => exact fun i => Vector.getElem_replicate i.isLt
  case cfgs =>
    show (cfgs.map emptyLevel).map (·.cfg) = cfgs
    rw [List.map_map]
    exact List.map_id cfgs
  case rows =>
    intro lv hlv
    obtain ⟨c, -, rfl⟩ := List.mem_map.1 hlv
    exact emptyLevel_rows c
  case report =>
    intro k c hk
    rw [Nat.add_comm k 1]
    exact configReport_getElem? 1 hk

end Sys2Proof.Machine
end

section
/-! PROOFS. Memory (20_memory.md): the cell of an index, a stored word that is fetched next, and the fetch that
passes the cache by. -/

namespace Sys2Proof.Machine

/-! ### Cells (20_memory.md R52) -/

theorem memRead_eq_read_mod (s : State) (v : Nat) : memRead s v = Memory.read s.mem (v % 8192) := rfl

/-- A write at `v` sets the cell `v mod 8192` and no other. -/
theorem memWrite_read (s : State) (v a : Nat) (x : Word) :
    Memory.read (memWrite s v x).mem a = if a = v % 8192 then x else Memory.read s.mem a :=
  Memory.read_write s.mem (v % 8192) a x

theorem fetch_eq_read_mod (s : State) : fetch s = Memory.read s.mem (s.pc.toNat % 8192) := rfl

/-! ### Load and store (44_load_store.md R181, R182) -/

theorem exec_lw_eq (rA rB : Reg) (imm7 : Imm7) (s : State) :
    exec (.lw rA rB imm7) s =
      .next (retire (readProbe (writeReg s rB (memRead s (effectiveAddr s.regs[rA] imm7)))
        (effectiveAddr s.regs[rA] imm7)) (seqPc s.pc) false) := rfl

theorem exec_sw_eq (rA rB : Reg) (imm7 : Imm7) (s : State) :
    exec (.sw rA rB imm7) s =
      .next (retire (writeProbe (memWrite s (effectiveAddr s.regs[rA] imm7) s.regs[rB])
        (effectiveAddr s.regs[rA] imm7)) (seqPc s.pc) false) := rfl

/-- A load completes, and a destination other than register 0 holds the cell at the effective address. -/
theorem exec_lw_loads (rA rB : Reg) (imm7 : Imm7) (s : State) :
    ∃ t, exec (.lw rA rB imm7) s = .next t ∧
      (rB ≠ 0 → t.regs[rB] = Memory.read s.mem (effectiveAddr s.regs[rA] imm7)) := by
  refine ⟨_, exec_lw_eq rA rB imm7 s, fun hrB => ?_⟩
  rw [retire_get, if_neg hrB, readProbe_regs, writeReg_regs, regs_set_get, if_pos rfl, memRead,
    cellIndex_effectiveAddr]

/-- A store completes, advances to the next cell, keeps the run state, and leaves the source register's value in the
cell at the effective address. -/
theorem exec_sw_stores (rA rB : Reg) (imm7 : Imm7) (s : State) :
    ∃ t, exec (.sw rA rB imm7) s = .next t ∧ t.pc = seqPc s.pc ∧ t.run = s.run ∧
      Memory.read t.mem (effectiveAddr s.regs[rA] imm7) = s.regs[rB] := by
  refine ⟨_, exec_sw_eq rA rB imm7 s, rfl, rfl, ?_⟩
  rw [retire_mem, writeProbe_mem, memWrite_mem, cellIndex_effectiveAddr, Memory.read_write, if_pos rfl]

/-- Settles O34: reads and fetches reduce their index, a write is `memWrite_read`, and the effective address of `lw`
and `sw` is already reduced. -/
theorem cellsModulo8192 : Obligations.CellsModulo8192 := by
  refine ⟨memRead_eq_read_mod, memWrite_read, fetch_eq_read_mod, effectiveAddr_eq, fun rA rB imm7 s => ?loadStore⟩
  obtain ⟨t, hload, hreg⟩ := exec_lw_loads rA rB imm7 s
  obtain ⟨u, hstore, -, -, hcell⟩ := exec_sw_stores rA rB imm7 s
  exact ⟨t, u, hload, hstore, hreg, hcell⟩

/-! ### A stored word is fetched next (20_memory.md R63) -/

/-- Settles O13: the cell the `sw` writes is the one its successor's `pc` names, so the next fetch reads the stored
value. -/
theorem storedWordExecutesNext : Obligations.StoredWordExecutesNext := by
  intro s rA rB imm7 hrunning hdecode haddr
  obtain ⟨t, hexec, hpc, hrun, hcell⟩ := exec_sw_stores rA rB imm7 s
  have hstep : step s = .next t := by rw [step_of_running hrunning, fetch_eq_read_mod, hdecode, hexec]
  have hnext : t.pc.toNat % 8192 = effectiveAddr s.regs[rA] imm7 := by
    rw [hpc, seqPc_toNat, Nat.mod_mod, effectiveAddr_eq]
    exact haddr.symm
  have hfetch : fetch t = s.regs[rB] := by rw [fetch_eq_read_mod, hnext, hcell]
  exact ⟨t, hstep, by rw [step_of_running (hrun.trans hrunning), hfetch]⟩

/-! ### The fetch passes the cache by (20_memory.md R64) -/

/-- Every instruction completes, and only `lw` and `sw` probe: any other leaves the levels and the output alone. -/
theorem exec_sameCache (i : Instr) (s : State) :
    ∃ t, exec i s = .next t ∧ ((∀ rA rB imm7, i ≠ .lw rA rB imm7 ∧ i ≠ .sw rA rB imm7) → SameCache s t) := by
  cases i
  case lw rA rB imm7 => exact ⟨_, rfl, fun hother => absurd rfl (hother rA rB imm7).1⟩
  case sw rA rB imm7 => exact ⟨_, rfl, fun hother => absurd rfl (hother rA rB imm7).2⟩
  all_goals exact ⟨_, rfl, fun _ => ⟨rfl, rfl⟩⟩

/-- Settles O14: a running step is the `exec` of the fetched word, and `exec_sameCache` says what that does. -/
theorem fetchBypassesCache : Obligations.FetchBypassesCache := by
  intro s hrunning
  obtain ⟨t, hexec, hcache⟩ := exec_sameCache (decode (fetch s)) s
  exact ⟨t, (step_of_running hrunning).trans hexec, hcache, hexec⟩

end Sys2Proof.Machine
end

section
/-! PROOFS. Decoding and encoding (30_encoding.md): the two round trips, the rows of the opcode table, `jr` and the
no-operation space. -/

namespace Sys2Proof

/-! ### Slices of a word -/

/-- A slice that holds a value of one bit less has its top bit clear. -/
theorem extractLsb'_succ_eq_ofNat {m : Nat} (v : BitVec m) (k n c : Nat) (hc : c < 2 ^ n) :
    v.extractLsb' k (n + 1) = BitVec.ofNat (n + 1) c ↔
      v.getLsbD (k + n) = false ∧ v.extractLsb' k n = BitVec.ofNat n c := by
  have htop : c.testBit n = false := Nat.testBit_lt_two_pow hc
  have hle : ∀ i < n, i ≤ n := fun _ => Nat.le_of_lt
  simp only [BitVec.eq_of_getLsbD_eq_iff, Nat.forall_lt_succ_right, BitVec.getLsbD_extractLsb', BitVec.getLsbD_ofNat]
  simp +contextual [htop, hle, and_comm]

theorem extractLsb'_one_eq_one {m : Nat} (v : BitVec m) (k : Nat) :
    v.extractLsb' k 1 = 1#1 ↔ v.getLsbD k = true := by
  rw [BitVec.getLsbD_eq_extractLsb', beq_iff_eq]

theorem extractLsb'_ignoredField (w : Word) {k n : Nat} (h : k + n ≤ 9) :
    (ignoredField w).extractLsb' k n = w.extractLsb' (4 + k) n := by
  ext i hi
  have hbit : k + i < 9 := by omega
  simp [ignoredField, hbit, Nat.add_assoc]

/-- Bits 9:4 are the fields `rB` and `rC`. -/
theorem bits94_eq_zero_iff (w : Word) : w.extractLsb' 4 6 = 0#6 ↔ rBField w = 0 ∧ rCField w = 0 := by
  have hsplit : w.extractLsb' 7 3 ++ w.extractLsb' 4 3 = w.extractLsb' 4 6 :=
    BitVec.extractLsb'_append_extractLsb'_eq_extractLsb' rfl
  have hzero : ∀ b c : BitVec 3, b ++ c = 0#6 ↔ b.toFin = 0 ∧ c.toFin = 0 := by decide
  rw [← hsplit, hzero, rBField, rCField]

/-! ### Function code `1000` (30_encoding.md R89, R91) -/

theorem decode_of_func1000 {w : Word} (hop : opField w = 0b000#3) (hfunc : funcField w = 0b1000#4) :
    decode w = decodeFunc1000 w := by
  simp [decode, decodeClass000, hop, hfunc]

theorem decode_of_bits94_zero {w : Word} (hop : opField w = 0b000#3) (hfunc : funcField w = 0b1000#4)
    (hzero : w.extractLsb' 4 6 = 0#6) : decode w = .jr (rAField w) := by
  rw [decode_of_func1000 hop hfunc, decodeFunc1000, if_pos hzero]

/-! ### Decoding an encoding -/

/-- The fields of the encoded word name the class, the function code and the operands; in a row of `func = 1000` the
highest set bit of bits 9:4 decides, bit by bit. -/
theorem decode_encode (i : Instr) (h : i.wellFormed = true) : decode (encode i) = i := by
  cases i
  case j | jal => simp [encode, decode, opField_encodeJ, imm13Field_encodeJ]
  case addi | lw | sw | jeq | slti =>
    simp [encode, decode, opField_encodeRRI, rAField_encodeRRI, rBField_encodeRRI, imm7Field_encodeRRI]
  case add | sub | or | and | slt =>
    simp [encode, decode, decodeClass000, opField_encodeRRR, funcField_encodeRRR, rAField_encodeRRR,
      rBField_encodeRRR, rCField_encodeRRR]
  case jr rA =>
    have hzero : (encodeRRR rA 0 0 0b1000#4).extractLsb' 4 6 = 0#6 :=
      (bits94_eq_zero_iff _).2 ⟨rBField_encodeRRR .., rCField_encodeRRR ..⟩
    rw [encode, decode_of_bits94_zero (opField_encodeRRR ..) (funcField_encodeRRR ..) hzero, rAField_encodeRRR]
  case nopFunc1000Bit9 ign | nopFunc1000Bit8 ign | nopFunc1000Bit7 ign | nopFunc1000Bit6 ign | nopFunc1000Bit5 ign |
      nopFunc1000Bit4 ign =>
    rw [Instr.wellFormed, beq_iff_eq, ← ignoredField_encodeNop ign 0b1000#4,
      extractLsb'_ignoredField _ (by decide)] at h
    simp (disch := decide) only [extractLsb'_succ_eq_ofNat, extractLsb'_one_eq_one, Nat.reduceAdd] at h
    rw [encode, decode_of_func1000 (opField_encodeNop ..) (funcField_encodeNop ..)]
    simp (disch := decide) only [decodeFunc1000, extractLsb'_succ_eq_ofNat, extractLsb'_one_eq_one, Nat.reduceAdd, h,
      ignoredField_encodeNop, Bool.true_eq_false, Bool.false_eq_true, false_and, and_false, if_true, if_false]
  all_goals simp [encode, decode, decodeClass000, opField_encodeNop, funcField_encodeNop, ignoredField_encodeNop]

/-- Settles O2, by the fields of the encoded word. -/
theorem decodeEncodeRoundTrip : Obligations.DecodeEncodeRoundTrip := decode_encode

/-! ### Encoding what a word decodes to -/

/-- `w` is the word of the well-formed instruction `i`. -/
def IsWordOf (w : Word) (i : Instr) : Prop := i.wellFormed = true ∧ encode i = w

section
variable {w : Word} (hop : opField w = 0b000#3)
include hop

theorem encodeRRR_fields_of_func {f : BitVec 4} (hfunc : funcField w = f) :
    encodeRRR (rAField w) (rBField w) (rCField w) f = w := by
  rw [← hfunc, encodeRRR_fields hop]

theorem encodeNop_fields_of_func {f : BitVec 4} (hfunc : funcField w = f) : encodeNop (ignoredField w) f = w := by
  rw [← hfunc, encodeNop_fields hop]

/-- The first bit of 9:4 that is set, from bit 9 down, names the row, and it is what `wellFormed` asks of the row. -/
theorem isWordOf_decodeFunc1000 (hfunc : funcField w = 0b1000#4) : IsWordOf w (decodeFunc1000 w) := by
  unfold decodeFunc1000
  split
  case isTrue hzero =>
    obtain ⟨hrB, hrC⟩ := (bits94_eq_zero_iff w).1 hzero
    have hword := encodeRRR_fields_of_func hop hfunc
    rw [hrB, hrC] at hword
    exact ⟨rfl, hword⟩
  case isFalse hset =>
    simp (disch := decide) only [extractLsb'_succ_eq_ofNat, Nat.reduceAdd] at hset
    simp only [extractLsb'_one_eq_one]
    split_ifs
    all_goals
      refine ⟨?_, encodeNop_fields_of_func hop hfunc⟩
      rw [Instr.wellFormed, beq_iff_eq, extractLsb'_ignoredField _ (by decide)]
      simp (disch := decide) only [extractLsb'_succ_eq_ofNat, extractLsb'_one_eq_one, Nat.reduceAdd]
      simp_all

theorem isWordOf_decodeClass000 : IsWordOf w (decodeClass000 w) := by
  unfold decodeClass000
  iterate 5 refine iteInduction (fun hfunc => ⟨rfl, encodeRRR_fields_of_func hop hfunc⟩) fun _ => ?_
  iterate 3 refine iteInduction (fun hfunc => ⟨rfl, encodeNop_fields_of_func hop hfunc⟩) fun _ => ?_
  refine iteInduction (fun hfunc => isWordOf_decodeFunc1000 hop hfunc) fun _ => ?_
  iterate 6 refine iteInduction (fun hfunc => ⟨rfl, encodeNop_fields_of_func hop hfunc⟩) fun _ => ?_
  have hfunc : funcField w = 0b1111#4 := by bv_omega
  exact ⟨rfl, encodeNop_fields_of_func hop hfunc⟩

end

theorem encodeRRI_fields_of_op {w : Word} {op : BitVec 3} (hop : opField w = op) :
    encodeRRI op (rAField w) (rBField w) (imm7Field w) = w := by
  rw [← hop, encodeRRI_fields]

theorem encodeJ_fields_of_op {w : Word} {op : BitVec 3} (hop : opField w = op) : encodeJ op (imm13Field w) = w := by
  rw [← hop, encodeJ_fields]

theorem isWordOf_decode (w : Word) : IsWordOf w (decode w) := by
  unfold decode
  refine iteInduction (fun hop => isWordOf_decodeClass000 hop) fun _ => ?_
  refine iteInduction (fun hop => ⟨rfl, encodeRRI_fields_of_op hop⟩) fun _ => ?_
  iterate 2 refine iteInduction (fun hop => ⟨rfl, encodeJ_fields_of_op hop⟩) fun _ => ?_
  iterate 3 refine iteInduction (fun hop => ⟨rfl, encodeRRI_fields_of_op hop⟩) fun _ => ?_
  have hop : opField w = 0b111#3 := by bv_omega
  exact ⟨rfl, encodeRRI_fields_of_op hop⟩

/-- Settles O3: on every branch of the decoder the operands are the word's fields, which put together are the word. -/
theorem encodeDecodeRoundTrip : Obligations.EncodeDecodeRoundTrip := isWordOf_decode

/-! ### The rows of the opcode table (30_encoding.md R92) -/

theorem row_mem_opcodeRows (i : Instr) : i.row ∈ opcodeRows := by
  cases i <;> simp only [Instr.row] <;> decide

/-- Two different rows differ in a bit that both fix. -/
theorem opcodeRows_conflict : opcodeRows.Pairwise fun r₁ r₂ => r₁.2 &&& r₂.1 ≠ r₂.2 &&& r₁.1 := by decide

/-- No word lies in two rows: of the bits that both fix, each would fix the word's. -/
theorem row_eq_of_match {w : Word} {r₁ r₂ : Word × Word} (hr₁ : r₁ ∈ opcodeRows) (hr₂ : r₂ ∈ opcodeRows)
    (h₁ : w &&& r₁.1 = r₁.2) (h₂ : w &&& r₂.1 = r₂.2) : r₁ = r₂ := by
  by_contra hne
  have hsymm : Std.Symm fun r₁ r₂ : Word × Word => r₁.2 &&& r₂.1 ≠ r₂.2 &&& r₁.1 := ⟨fun _ _ => Ne.symm⟩
  refine opcodeRows_conflict.forall hr₁ hr₂ hne ?_
  rw [← h₁, ← h₂, BitVec.and_assoc, BitVec.and_assoc, BitVec.and_comm r₁.1]

theorem rowMatch_encode : ∀ i : Instr, Laws.RowMatch.Statement i
  | .add rA rB rC => Laws.RowMatch.add rA rB rC
  | .sub rA rB rC => Laws.RowMatch.sub rA rB rC
  | .or rA rB rC => Laws.RowMatch.or rA rB rC
  | .and rA rB rC => Laws.RowMatch.and rA rB rC
  | .slt rA rB rC => Laws.RowMatch.slt rA rB rC
  | .jr rA => Laws.RowMatch.jr rA
  | .j imm13 => Laws.RowMatch.j imm13
  | .jal imm13 => Laws.RowMatch.jal imm13
  | .addi rA rB imm7 => Laws.RowMatch.addi rA rB imm7
  | .lw rA rB imm7 => Laws.RowMatch.lw rA rB imm7
  | .sw rA rB imm7 => Laws.RowMatch.sw rA rB imm7
  | .jeq rA rB imm7 => Laws.RowMatch.jeq rA rB imm7
  | .slti rA rB imm7 => Laws.RowMatch.slti rA rB imm7
  | .nopFunc0101 ign => Laws.RowMatch.nopFunc0101 ign
  | .nopFunc0110 ign => Laws.RowMatch.nopFunc0110 ign
  | .nopFunc0111 ign => Laws.RowMatch.nopFunc0111 ign
  | .nopFunc1001 ign => Laws.RowMatch.nopFunc1001 ign
  | .nopFunc1010 ign => Laws.RowMatch.nopFunc1010 ign
  | .nopFunc1011 ign => Laws.RowMatch.nopFunc1011 ign
  | .nopFunc1100 ign => Laws.RowMatch.nopFunc1100 ign
  | .nopFunc1101 ign => Laws.RowMatch.nopFunc1101 ign
  | .nopFunc1110 ign => Laws.RowMatch.nopFunc1110 ign
  | .nopFunc1111 ign => Laws.RowMatch.nopFunc1111 ign
  | .nopFunc1000Bit9 ign => Laws.RowMatch.nopFunc1000Bit9 ign
  | .nopFunc1000Bit8 ign => Laws.RowMatch.nopFunc1000Bit8 ign
  | .nopFunc1000Bit7 ign => Laws.RowMatch.nopFunc1000Bit7 ign
  | .nopFunc1000Bit6 ign => Laws.RowMatch.nopFunc1000Bit6 ign
  | .nopFunc1000Bit5 ign => Laws.RowMatch.nopFunc1000Bit5 ign
  | .nopFunc1000Bit4 ign => Laws.RowMatch.nopFunc1000Bit4 ign

/-- Decoding names a row that the word lies in. -/
theorem and_row_decode (w : Word) : w &&& (decode w).row.1 = (decode w).row.2 := by
  obtain ⟨hwf, hencode⟩ := isWordOf_decode w
  have hmatch := rowMatch_encode (decode w) hwf
  rwa [rowMatches, beq_iff_eq, hencode] at hmatch

/-- Settles O4: the word encodes what it decodes to, so it lies in that row, and rows are disjoint. -/
theorem opcodeRowsPartitionWords : Obligations.OpcodeRowsPartitionWords := fun w =>
  ⟨row_mem_opcodeRows _, and_row_decode w, fun _ hr hmatch =>
    row_eq_of_match hr (row_mem_opcodeRows _) hmatch (and_row_decode w)⟩

/-! ### The no-operation space (30_encoding.md R91) -/

/-- The words of R91: class `000`, and an unused function code or `1000` with a non-zero bit in `ir[9:4]`. -/
def IsNopWord (w : Word) : Prop :=
  opField w = 0b000#3 ∧
    (funcField w ∈ [5#4, 6#4, 7#4, 9#4, 10#4, 11#4, 12#4, 13#4, 14#4, 15#4] ∨
      funcField w = 0b1000#4 ∧ w.extractLsb' 4 6 ≠ 0#6)

theorem isNopWord_of_ne_jr {w : Word} (hop : opField w = 0b000#3) (hfunc : funcField w = 0b1000#4)
    (hjr : ∀ rA, decode w ≠ .jr rA) : IsNopWord w :=
  ⟨hop, .inr ⟨hfunc, fun hzero => hjr (rAField w) (decode_of_bits94_zero hop hfunc hzero)⟩⟩

theorem isNop_iff_isNopWord_encode (i : Instr) (h : i.wellFormed = true) : i.isNop = true ↔ IsNopWord (encode i) := by
  cases i
  case j | jal => simp [IsNopWord, encode, Instr.isNop, opField_encodeJ]
  case addi | lw | sw | jeq | slti => simp [IsNopWord, encode, Instr.isNop, opField_encodeRRI]
  case add | sub | or | and | slt => simp [IsNopWord, encode, Instr.isNop, funcField_encodeRRR]
  case jr => simp [IsNopWord, encode, Instr.isNop, funcField_encodeRRR, bits94_eq_zero_iff, rBField_encodeRRR,
      rCField_encodeRRR]
  case nopFunc1000Bit9 | nopFunc1000Bit8 | nopFunc1000Bit7 | nopFunc1000Bit6 | nopFunc1000Bit5 | nopFunc1000Bit4 =>
    have hdecode := decode_encode _ h
    exact iff_of_true rfl (isNopWord_of_ne_jr (opField_encodeNop ..) (funcField_encodeNop ..) fun _ hjr =>
      nomatch hdecode.symm.trans hjr)
  all_goals simp [IsNopWord, encode, Instr.isNop, opField_encodeNop, funcField_encodeNop]

theorem isNop_decode_iff (w : Word) : (decode w).isNop = true ↔ IsNopWord w := by
  obtain ⟨hwf, hencode⟩ := isWordOf_decode w
  rw [isNop_iff_isNopWord_encode _ hwf, hencode]

/-- Settles O6: the word encodes what it decodes to, and `IsNopWord` tells the encodings apart. -/
theorem noOperationSpaceExact : Obligations.NoOperationSpaceExact := isNop_decode_iff

/-! ### The words of `jr` (30_encoding.md R89) -/

theorem row_eq_jr_iff (i : Instr) : i.row = (0xE3FF#16, 0x0008#16) ↔ ∃ rA, i = .jr rA := by
  cases i
  case jr rA => exact ⟨fun _ => ⟨rA, rfl⟩, fun _ => rfl⟩
  all_goals simp [Instr.row]

theorem decode_eq_jr_iff (w : Word) : (∃ rA, decode w = .jr rA) ↔ w &&& 0xE3FF#16 = 0x0008#16 := by
  rw [← row_eq_jr_iff]
  constructor
  · intro hrow
    have hmatch := and_row_decode w
    rwa [hrow] at hmatch
  · exact row_eq_of_match (row_mem_opcodeRows _) (row_mem_opcodeRows (.jr 0)) (and_row_decode w)

/-- Settles O5: the first clause is the row of `jr`, the second is part of the no-operation space. -/
theorem jrNeedsZeroBits : Obligations.JrNeedsZeroBits := fun w =>
  ⟨decode_eq_jr_iff w, fun hop hfunc hset => (isNop_decode_iff w).2 ⟨hop, .inr ⟨hfunc, hset⟩⟩⟩

/-! ### Words of the spec -/

/-- Settles O1, by running the decoder on the eighteen words. -/
theorem specWordsDecode : Obligations.SpecWordsDecode := by
  unfold Obligations.SpecWordsDecode
  decide

end Sys2Proof
end

section
/-! PROOFS. The instruction cycle (40_instruction_cycle.md): what a step runs, that it completes, the core that stands
still, and the clock. -/

namespace Sys2Proof.Machine

/-! ### What a step runs (R111, R112) -/

/-- An instruction word is as wide as a cell, so reduced to its 16 bits it is itself. -/
theorem tableWord_toNat (w : Word) : tableWord 16 w.toNat = w := by
  rw [tableWord, Nat.mod_eq_of_lt w.isLt, BitVec.ofNat_toNat, BitVec.setWidth_eq]

/-- Settles O7: the fetch is the read of the cell, and after `withFetchWord` it gives the placed word. -/
theorem stepRunsDecodedInstruction : Obligations.StepRunsDecodedInstruction := by
  refine ⟨fun s hrunning => ?cell, fun s w => ?placed⟩
  case cell => rw [step_of_running hrunning, fetch_eq_read_mod]
  case placed => rw [step_of_running (withFetchWord_run s 16 w.toNat), fetch_withFetchWord, tableWord_toNat]

/-! ### Every running step completes (R121) -/

/-- Every instruction completes, ticks once (R116), and leaves the run state as it was or halts. -/
theorem exec_completes (i : Instr) (s : State) :
    ∃ t, exec i s = .next t ∧ t.clk = s.clk + 1 ∧ (t.run = s.run ∨ t.run = .halted) := by
  obtain ⟨u, npc, halt, hexec, hbody, -⟩ := exec_spec i s
  obtain ⟨-, hclk, hrun⟩ := hbody.control
  refine ⟨retire u npc halt, hexec, by rw [retire_clk, hclk], ?_⟩
  cases halt with
  | true => exact .inr (retire_run u npc true)
  | false => exact .inl ((retire_run u npc false).trans hrun)

/-- A running step completes, ticks once, and leaves the core running or halted. -/
theorem step_completes_of_running {s : State} (h : s.run = .running) :
    ∃ t, step s = .next t ∧ t.clk = s.clk + 1 ∧ (t.run = .running ∨ t.run = .halted) := by
  rw [step_of_running h, ← h]
  exact exec_completes (decode (fetch s)) s

/-- A step has two outcomes: a next state, or the fault of a refused launch. -/
theorem step_next_or_fault (s : State) :
    (∃ t, step s = .next t) ∨ ∃ e f, s.run = .failed e ∧ step s = .fault f := by
  cases hrun : s.run with
  | running =>
    obtain ⟨t, hstep, -⟩ := step_completes_of_running hrun
    exact .inl ⟨t, hstep⟩
  | halted => exact .inl ⟨s, step_of_halted hrun⟩
  | inReset => exact .inl ⟨s, step_of_inReset hrun⟩
  | failed e =>
    cases e with
    | configError k => exact .inr ⟨_, _, rfl, step_of_configError hrun⟩
    | imageError => exact .inr ⟨_, _, rfl, step_of_imageError hrun⟩

theorem step_fault_failed {s : State} {f : Fault} (h : step s = .fault f) : ∃ e, s.run = .failed e := by
  rcases step_next_or_fault s with ⟨t, hnext⟩ | ⟨e, _, hfailed, -⟩
  · exact nomatch hnext.symm.trans h
  · exact ⟨e, hfailed⟩

theorem step_ne_refused (s : State) (r : Refusal) : step s ≠ .refused r := by
  intro h
  rcases step_next_or_fault s with ⟨t, hnext⟩ | ⟨_, f, -, hfault⟩
  · exact nomatch hnext.symm.trans h
  · exact nomatch hfault.symm.trans h

/-- What a step that answers a next state does to run state and clock: the core ran and ticked, or it stood still. -/
theorem step_next_control {s t : State} (h : step s = .next t) :
    (s.run = .running ∧ t.clk = s.clk + 1 ∧ (t.run = .running ∨ t.run = .halted)) ∨
      ((s.run = .halted ∨ s.run = .inReset) ∧ t = s) := by
  rcases step_next_cases h with ⟨hrunning, -⟩ | hstopped
  · obtain ⟨t', hstep, hcontrol⟩ := step_completes_of_running hrunning
    obtain rfl : t' = t := Host.Outcome.next.inj (hstep.symm.trans h)
    exact .inl ⟨hrunning, hcontrol⟩
  · exact .inr hstopped

theorem step_next_not_failed {s t : State} (h : step s = .next t) (e : LaunchError) : t.run ≠ .failed e := by
  rcases step_next_control h with ⟨-, -, hrun | hrun⟩ | ⟨hrun | hrun, rfl⟩
  all_goals
    rw [hrun]
    exact nofun

/-- Settles O8: a step has two outcomes, and an instruction leaves the core running or halted. -/
theorem runningStepAlwaysCompletes : Obligations.RunningStepAlwaysCompletes := by
  refine ⟨fun s hrunning => ?completes, fun _ _ => step_fault_failed, step_ne_refused,
    fun _ _ e h => step_next_not_failed h e⟩
  obtain ⟨t, hstep, -⟩ := step_completes_of_running hrunning
  exact ⟨t, hstep⟩

/-! ### A core that stands still (R119) -/

/-- A state that a step leaves alone is left alone by any number of steps. -/
theorem run_of_step_self {s : State} (h : step s = .next s) (k : Nat) : core.run k s = .next s := by
  induction k with
  | zero => rfl
  | succ k ih => exact run_succ_next.2 ⟨s, h, ih⟩

/-- Settles O9: one such step answers the same state. -/
theorem stoppedCoreNeverChanges : Obligations.StoppedCoreNeverChanges := by
  rintro k s (hhalted | hreset)
  · exact run_of_step_self (step_of_halted hhalted) k
  · exact run_of_step_self (step_of_inReset hreset) k

/-! ### The clock (R116) -/

/-- A core that runs after a step ran before it: no step starts a core. -/
theorem step_to_running {s t : State} (h : step s = .next t) (hrunning : t.run = .running) :
    s.run = .running ∧ t.clk = s.clk + 1 := by
  rcases step_next_control h with ⟨hbefore, hclk, -⟩ | ⟨hhalted | hreset, rfl⟩
  · exact ⟨hbefore, hclk⟩
  · exact nomatch hhalted.symm.trans hrunning
  · exact nomatch hreset.symm.trans hrunning

/-- Settles O12, by induction on the number of steps: the rest of the run says that the state after the first step is
running, so that step was an instruction and ticked. -/
theorem clockCountsInstructions : Obligations.ClockCountsInstructions := by
  intro k
  induction k with
  | zero =>
    intro s t hrun hrunning
    obtain rfl : s = t := Host.Outcome.next.inj hrun
    exact ⟨hrunning, rfl⟩
  | succ k ih =>
    intro s t hrun hrunning
    obtain ⟨m, hstep, hrest⟩ := run_succ_next.1 hrun
    obtain ⟨hmid, hclkRest⟩ := ih m t hrest hrunning
    obtain ⟨hbefore, hclkStep⟩ := step_to_running hstep hmid
    exact ⟨hbefore, by omega⟩

end Sys2Proof.Machine
end

section
/-! PROOFS. The register-register instructions and the no-operations (41_register_alu.md). -/

namespace Sys2Proof.Machine

/-! ### What the common end of an instruction leaves (40_instruction_cycle.md R111) -/

/-- An instruction that does no more than write a register: the next cell, one tick, the rest of the state as it was. -/
def AdvancesOnly (s t : State) : Prop := SequentialPc s t ∧ Ticks s t ∧ SameMemory s t ∧ SameCache s t

/-- Whatever the body left in the registers, the sequential end only advances. -/
theorem retire_advancesOnly (s : State) (regs : Vector Word 8) :
    AdvancesOnly s (retire { s with regs := regs } (seqPc s.pc) false) :=
  ⟨seqPc_toNat s.pc, ⟨rfl, rfl⟩, fun _ => rfl, rfl, rfl⟩

theorem retire_writeReg_writesOnly (s : State) (d : Reg) (v npc : Word) (halt : Bool) :
    WritesOnly s (retire (writeReg s d v) npc halt) d v :=
  fun i => retire_writeReg_get s d i v npc halt

theorem retire_writesNoRegister (s : State) (npc : Word) (halt : Bool) : WritesNoRegister s (retire s npc halt) :=
  fun i => retire_get s i npc halt

/-! ### Register-register instructions (R131 to R135) -/

/-- A register-register instruction completes, writes the result of its operation, and only advances (R130). -/
theorem execRRR_spec (f : Word → Word → Word) (rA rB rC : Reg) (s : State) :
    ∃ t, execRRR f rA rB rC s = .next t ∧ WritesOnly s t rC (f s.regs[rA] s.regs[rB]) ∧ AdvancesOnly s t :=
  ⟨_, rfl, retire_writeReg_writesOnly s rC _ _ _, retire_advancesOnly s _⟩

/-- Settles O16: the sum modulo 65536 is the sum of the words. -/
theorem addResult : Obligations.AddResult := by
  intro rA rB rC s
  rw [u16_add]
  exact execRRR_spec (fun a b => a + b) rA rB rC s

/-- Settles O17: the difference modulo 65536 is the difference of the words. -/
theorem subResult : Obligations.SubResult := by
  intro rA rB rC s
  rw [u16_sub]
  exact execRRR_spec (fun a b => a - b) rA rB rC s

/-- Settles O18: the word written is the OR of the operands, which is the OR of each pair of bits. -/
theorem orResult : Obligations.OrResult := by
  intro rA rB rC s
  obtain ⟨t, hexec, hregs, hadvance⟩ := execRRR_spec (fun a b => a ||| b) rA rB rC s
  exact ⟨t, _, hexec, hregs, fun _ => BitVec.getLsbD_or, hadvance⟩

/-- Settles O19: the word written is the AND of the operands, which is the AND of each pair of bits. -/
theorem andResult : Obligations.AndResult := by
  intro rA rB rC s
  obtain ⟨t, hexec, hregs, hadvance⟩ := execRRR_spec (fun a b => a &&& b) rA rB rC s
  exact ⟨t, _, hexec, hregs, fun _ => BitVec.getLsbD_and, hadvance⟩

/-- Settles O20: `setLess` is the unsigned comparison. -/
theorem sltResult : Obligations.SltResult := execRRR_spec setLess

/-! ### No-operations (R136) -/

/-- Every row of the no-operation space has the one meaning `execNop`. -/
theorem exec_of_isNop {i : Instr} (h : i.isNop = true) (s : State) : exec i s = execNop s := by
  cases i
  case add | sub | or | and | slt | jr | j | jal | addi | lw | sw | jeq | slti => exact nomatch h
  all_goals rfl

theorem execNop_spec (s : State) : ∃ t, execNop s = .next t ∧ WritesNoRegister s t ∧ AdvancesOnly s t :=
  ⟨_, rfl, retire_writesNoRegister s _ _, retire_advancesOnly s s.regs⟩

/-- Settles O21: the sixteen instructions are no-operations, and a no-operation only advances. -/
theorem noOperationResult : Obligations.NoOperationResult := by
  intro ign s i hi
  have hnop : i.isNop = true := List.all_eq_true.1 rfl i hi
  rw [exec_of_isNop hnop]
  exact execNop_spec s

end Sys2Proof.Machine
end

section
/-! PROOFS. Control transfer (42_control_transfer.md): the four jumps, and the one instruction that halts. -/

namespace Sys2Proof.Machine

/-! ### What every jump leaves alone -/

/-- Whatever the body left in the registers and whatever the target, an end that does not halt ticks and leaves memory,
the levels and the output alone. -/
theorem retire_ticks_only (s : State) (regs : Vector Word 8) (npc : Word) :
    Ticks s (retire { s with regs := regs } npc false) ∧ SameMemory s (retire { s with regs := regs } npc false) ∧
      SameCache s (retire { s with regs := regs } npc false) :=
  ⟨⟨rfl, rfl⟩, fun _ => rfl, rfl, rfl⟩

/-! ### The four jumps (R151 to R154) -/

/-- Settles O22: the target is the register reduced modulo 8192, and the end does not halt. -/
theorem jrResult : Obligations.JrResult := fun rA s =>
  ⟨_, rfl, registerTarget_toNat s.regs[rA], retire_writesNoRegister s _ _, retire_ticks_only s s.regs _⟩

/-- The halt condition of `j` compares the immediate with `pc` as numbers. -/
theorem isSelfJump_absoluteTarget (imm13 : Imm13) (pc : Word) :
    isSelfJump (absoluteTarget imm13) pc = true ↔ imm13.toNat = pc.toNat := by
  rw [isSelfJump, beq_iff_eq, ← BitVec.toNat_inj, absoluteTarget_toNat]

theorem exec_j_eq (imm13 : Imm13) (s : State) :
    exec (.j imm13) s =
      .next (retire s (absoluteTarget imm13) (isSelfJump (absoluteTarget imm13) s.pc)) := rfl

/-- Settles O23: the end halts exactly when the immediate is `pc`. -/
theorem jumpResult : Obligations.JumpResult := by
  intro imm13 s
  refine ⟨_, exec_j_eq imm13 s, absoluteTarget_toNat imm13, fun hself => ?halts, fun hother => ?runsOn, rfl,
    retire_writesNoRegister s _ _, fun _ => rfl, rfl, rfl⟩
  case halts => rw [retire_run, if_pos ((isSelfJump_absoluteTarget imm13 s.pc).2 hself)]
  case runsOn => rw [retire_run, if_neg (mt (isSelfJump_absoluteTarget imm13 s.pc).1 hother)]

/-- The link is the next address as a 16-bit number. -/
theorem linkValue_eq_u16 (pc : Word) : linkValue pc = u16 ((pc.toNat : Int) + 1) := (u16_add pc 1).symm

/-- Settles O24: the one register written is the link register, and the end does not halt. -/
theorem jalResult : Obligations.JalResult := by
  intro imm13 s
  rw [← linkValue_eq_u16]
  exact ⟨_, rfl, absoluteTarget_toNat imm13, retire_writeReg_writesOnly s linkReg _ _ _, retire_ticks_only s _ _⟩

theorem exec_jeq_eq (rA rB : Reg) (imm7 : Imm7) (s : State) :
    exec (.jeq rA rB imm7) s =
      .next (retire s (if branchTaken s.regs[rA] s.regs[rB] then relativeTarget s.pc imm7 else seqPc s.pc) false) :=
  rfl

/-- Settles O25: the branch is taken exactly when the registers are equal. -/
theorem jeqResult : Obligations.JeqResult := by
  intro rA rB imm7 s
  refine ⟨_, exec_jeq_eq rA rB imm7 s, fun heq => ?taken, fun hne => ?notTaken, retire_writesNoRegister s _ _,
    retire_ticks_only s s.regs _⟩
  case taken => rw [retire_pc, branchTaken, if_pos (beq_iff_eq.2 heq), relativeTarget_toNat]
  case notTaken => rw [SequentialPc, retire_pc, branchTaken, if_neg (mt beq_iff_eq.1 hne), seqPc_toNat]

/-! ### Only a self-jump halts (R155) -/

/-- The instruction is a `j` to its own cell. -/
def JumpsToSelf (i : Instr) (s : State) : Prop := ∃ imm13, i = .j imm13 ∧ imm13.toNat = s.pc.toNat

/-- A self-jump completes with the core halted where it stands. -/
theorem exec_of_jumpsToSelf {i : Instr} {s t : State} (hself : JumpsToSelf i s) (hexec : exec i s = .next t) :
    t.run = .halted ∧ t.pc = s.pc ∧ WritesNoRegister s t ∧ t.clk = s.clk + 1 := by
  obtain ⟨imm13, rfl, hpc⟩ := hself
  obtain ⟨t', hnext, htarget, hhalts, -, hclk, hregs, -⟩ := jumpResult imm13 s
  obtain rfl : t' = t := Host.Outcome.next.inj (hnext.symm.trans hexec)
  exact ⟨hhalts hpc, BitVec.eq_of_toNat_eq (htarget.trans hpc), hregs, hclk⟩

/-- An instruction that halts a core which had not halted is a self-jump. -/
theorem jumpsToSelf_of_exec_halts {i : Instr} {s t : State} (hexec : exec i s = .next t) (hs : s.run ≠ .halted)
    (ht : t.run = .halted) : JumpsToSelf i s := by
  obtain ⟨u, npc, halt, hnext, hbody, -, hjump⟩ := exec_spec i s
  obtain rfl : retire u npc halt = t := Host.Outcome.next.inj (hnext.symm.trans hexec)
  cases halt with
  | true =>
    obtain ⟨imm13, hi, htarget⟩ := hjump rfl
    exact ⟨imm13, hi, by rw [← absoluteTarget_toNat, htarget]⟩
  | false =>
    obtain ⟨-, -, hrun⟩ := hbody.control
    exact absurd (hrun.symm.trans ht) hs

/-- Settles O11: the fetched instruction halts the core exactly when it is a self-jump, and a step of the halted core
stands still. -/
theorem onlySelfJumpHalts : Obligations.OnlySelfJumpHalts := by
  intro s t hrunning hstep
  have hexec : exec (decode (fetch s)) s = .next t := (step_of_running hrunning).symm.trans hstep
  have hself : t.run = .halted → JumpsToSelf (decode (fetch s)) s :=
    jumpsToSelf_of_exec_halts hexec (by rw [hrunning]; exact nofun)
  refine ⟨⟨hself, fun h => (exec_of_jumpsToSelf h hexec).1⟩, fun hne => ?runsOn, fun hhalted => ?halts⟩
  case runsOn =>
    obtain ⟨t', hnext, -, hrun⟩ := step_completes_of_running hrunning
    obtain rfl : t' = t := Host.Outcome.next.inj (hnext.symm.trans hstep)
    exact hrun.resolve_right hne
  case halts =>
    obtain ⟨-, hpc, hregs, hclk⟩ := exec_of_jumpsToSelf (hself hhalted) hexec
    exact ⟨hpc, hregs, hclk, step_of_halted hhalted⟩

end Sys2Proof.Machine
end

section
/-! PROOFS. The register-immediate instructions (43_immediate_alu.md). -/

namespace Sys2Proof.Machine

/-- A register-immediate instruction completes, writes the result of its operation on the register and the sign-extended
immediate, and only advances (R170). -/
theorem execRRI_spec (f : Word → Word → Word) (rA rB : Reg) (imm7 : Imm7) (s : State) :
    ∃ t, execRRI f rA rB imm7 s = .next t ∧ WritesOnly s t rB (f s.regs[rA] (sext7 imm7)) ∧ AdvancesOnly s t :=
  ⟨_, rfl, retire_writeReg_writesOnly s rB _ _ _, retire_advancesOnly s _⟩

/-- Settles O26: the sum modulo 65536 is the sum of the register and the sign-extended immediate as words. -/
theorem addiResult : Obligations.AddiResult := by
  intro rA rB imm7 s
  rw [← sext7_toNat, u16_add]
  exact execRRI_spec (fun a imm => a + imm) rA rB imm7 s

/-- Settles O27: `setLess` compares with the sign-extended immediate as an unsigned number. -/
theorem sltiResult : Obligations.SltiResult := by
  intro rA rB imm7 s
  rw [← sext7_toNat]
  exact execRRI_spec setLess rA rB imm7 s

end Sys2Proof.Machine
end

section
/-! PROOFS. Load and store (44_load_store.md). -/

namespace Sys2Proof.Machine

/-- The address the model computes is the address of R180. -/
theorem effectiveAddr_eq_eaNum (a : Word) (imm7 : Imm7) : effectiveAddr a imm7 = eaNum a imm7 :=
  effectiveAddr_eq a imm7

theorem memRead_effectiveAddr (s : State) (a : Word) (imm7 : Imm7) :
    memRead s (effectiveAddr a imm7) = Memory.read s.mem (eaNum a imm7) := by
  rw [memRead, cellIndex_effectiveAddr, effectiveAddr_eq_eaNum]

/-- A store at an effective address sets that cell and no other. -/
theorem memWrite_effectiveAddr_read (s : State) (a : Word) (imm7 : Imm7) (v : Word) (b : Nat) :
    Memory.read (memWrite s (effectiveAddr a imm7) v).mem b =
      if b = eaNum a imm7 then v else Memory.read s.mem b := by
  rw [memWrite_mem, cellIndex_effectiveAddr, effectiveAddr_eq_eaNum, Memory.read_write]

/-- The read probe of a load touches no register. -/
theorem retire_readProbe_writesOnly (s : State) (d : Reg) (v : Word) (addr : Nat) (npc : Word) (halt : Bool) :
    WritesOnly s (retire (readProbe (writeReg s d v) addr) npc halt) d v := by
  intro i
  rw [retire_get, readProbe_regs, writeReg_regs, regs_set_get]

/-- Neither the store nor its write probe touches a register. -/
theorem retire_writeProbe_writesNoRegister (s : State) (a : Nat) (v : Word) (addr : Nat) (npc : Word) (halt : Bool) :
    WritesNoRegister s (retire (writeProbe (memWrite s a v) addr) npc halt) := by
  intro i
  rw [retire_get, writeProbe_regs, memWrite_regs]

/-- Settles O28: the word loaded is the cell at the effective address, and the read probe leaves registers and memory
alone. -/
theorem loadResult : Obligations.LoadResult := by
  intro rA rB imm7 s
  rw [← memRead_effectiveAddr]
  exact ⟨_, exec_lw_eq rA rB imm7 s, retire_readProbe_writesOnly s rB _ _ _ _, seqPc_toNat s.pc, ⟨rfl, rfl⟩,
    fun _ => rfl⟩

/-- Settles O29: what memory reads afterwards is `memWrite_effectiveAddr_read` at the cell stored to and at another. -/
theorem storeResult : Obligations.StoreResult := by
  intro rA rB imm7 s
  have hread := memWrite_effectiveAddr_read s s.regs[rA] imm7 s.regs[rB]
  exact ⟨_, exec_sw_eq rA rB imm7 s, (hread _).trans (if_pos rfl), fun a hne => (hread a).trans (if_neg hne),
    retire_writeProbe_writesNoRegister s _ _ _ _ _, seqPc_toNat s.pc, ⟨rfl, rfl⟩⟩

end Sys2Proof.Machine
end

section
/-! PROOFS. The cache controller (45_cache_hierarchy.md): decomposition, row scan, and what one access makes of its row
and level. -/

namespace Sys2Proof.Machine

/-! ### Decomposition (R193) -/

/-- Row and tag of an address are those of its block, and they tell blocks apart. -/
theorem decompose_eq_iff (c : LevelConfig) (a b : Nat) :
    decompose c a = decompose c b ↔ a / c.bsize = b / c.bsize := by
  refine ⟨fun h => ?_, fun h => by rw [decompose, decompose, h]⟩
  have hrow : rowOf c a = rowOf c b := congrArg Prod.fst h
  have htag : tagOf c a = tagOf c b := congrArg Prod.snd h
  rw [← tag_row_bid, ← tag_row_bid, hrow, htag]

theorem tagOf_le (c : LevelConfig) (addr : Nat) : tagOf c addr ≤ addr :=
  (Nat.div_le_self _ _).trans (Nat.div_le_self _ _)

/-- Settles O35: the row is a remainder and the tag the quotient, which `tag_row_bid` puts together again. -/
theorem addressDecomposition : Obligations.AddressDecomposition := by
  refine ⟨fun c addr hlegal haddr => ⟨rfl, ?rowRange, ?tagRange, (tag_row_bid c addr).symm⟩,
    fun c a b _ _ _ => decompose_eq_iff c a b, by decide, by decide, by decide⟩
  case rowRange => exact rowOf_lt ((LevelConfig.legal_iff c).2 hlegal) addr
  case tagRange => exact (tagOf_le c addr).trans (Nat.le_of_lt_succ haddr)

/-! ### The row scan (R195) -/

/-- With distinct tags, the way that holds the tag is the one a scan finds. -/
theorem scan_eq_hit {row : Row} {tag i : Nat} {b : Block} (hdistinct : (row.map (·.tag)).Nodup)
    (hb : row[i]? = some b) (htag : b.tag = tag) : scan row tag = .hit i := by
  have hi : (row.map (·.tag))[i]? = some tag := by rw [List.getElem?_map, hb, Option.map_some, htag]
  cases hscan : scan row tag with
  | hit way =>
    obtain ⟨c, hc, hctag⟩ := scan_hit hscan
    have hway : (row.map (·.tag))[way]? = some tag := by rw [List.getElem?_map, hc, Option.map_some, hctag]
    have hlt : way < (row.map (·.tag)).length := (List.getElem?_eq_some_iff.1 hway).1
    rw [(List.getElem?_inj hlt hdistinct).1 (hway.trans hi.symm)]
  | miss victim => exact absurd htag ((scan_miss hscan).1 b (List.mem_of_getElem? hb))

/-- Without the tag, a scan names the victim of a row that is not empty. -/
theorem scan_eq_miss {row : Row} {tag : Nat} (habsent : ∀ b ∈ row, b.tag ≠ tag) :
    ∃ victim, scan row tag = .miss victim ∧ (row = [] ∧ victim = none ∨ ∃ v, victim = some v ∧ IsVictim row v) := by
  cases hscan : scan row tag with
  | hit way =>
    obtain ⟨b, hb, htag⟩ := scan_hit hscan
    exact absurd htag (habsent b (List.mem_of_getElem? hb))
  | miss victim => exact ⟨victim, rfl, (scan_miss hscan).2⟩

/-- Settles O36: `scan_eq_hit` with the tag, `scan_eq_miss` without it. -/
theorem scanFindsTagOrVictim : Obligations.ScanFindsTagOrVictim := by
  intro blocks tag hdistinct
  refine ⟨fun i b hb htag => scan_eq_hit hdistinct hb htag, fun habsent hempty => ?_, fun habsent hne => ?_⟩
  · obtain ⟨victim, hscan, ⟨-, rfl⟩ | ⟨v, -, b, hb, -⟩⟩ := scan_eq_miss habsent
    · exact hscan
    · rw [hempty] at hb; cases hb
  · obtain ⟨victim, hscan, ⟨hempty, -⟩ | ⟨v, rfl, hvictim⟩⟩ := scan_eq_miss habsent
    · exact absurd hempty hne
    · exact ⟨v, hscan, hvictim⟩

/-! ### What an access makes of its row (R196, R197) -/

theorem IsVictim.lt_length {row : Row} {v : Nat} (h : IsVictim row v) : v < row.length := by
  obtain ⟨b, hb, -⟩ := h
  exact (List.getElem?_eq_some_iff.1 hb).1

/-- A way that is set loses the block it held and no other. -/
theorem mem_set_of_ne {row : Row} {v : Nat} {b c new : Block} (hc : row[v]? = some c) (hb : b ∈ row) (hne : b ≠ c) :
    b ∈ row.set v new := by
  obtain ⟨i, hi⟩ := List.mem_iff_getElem?.1 hb
  have hvi : v ≠ i := by
    rintro rfl
    exact hne (Option.some.inj (hi.symm.trans hc))
  exact List.mem_of_getElem? ((List.getElem?_set_ne hvi).trans hi)

section
variable {assoc tag clk : Nat} {old new : Row}

/-- The accessed block is in the row, stamped with the clock. -/
theorem RowAfter.accessed_mem (h : RowAfter assoc tag clk old new) : ⟨tag, clk⟩ ∈ new := by
  rcases h with ⟨way, b, hb, -, rfl⟩ | ⟨-, -, rfl⟩ | ⟨-, -, v, hvictim, rfl⟩
  · exact List.mem_set (List.getElem?_eq_some_iff.1 hb).1 _
  · exact List.mem_append_right _ (List.mem_singleton_self _)
  · exact List.mem_set (hvictim.lt_length) _

/-- A row that held the tag keeps its ways; the block of the tag gets the clock. -/
theorem RowAfter.restamped (h : RowAfter assoc tag clk old new) (hhit : ∃ b ∈ old, b.tag = tag) :
    ∃ way b, old[way]? = some b ∧ b.tag = tag ∧ new = old.set way ⟨b.tag, clk⟩ := by
  obtain ⟨c, hc, hctag⟩ := hhit
  rcases h with ⟨way, b, hb, rfl, hnew⟩ | ⟨habsent, -⟩ | ⟨habsent, -⟩
  · exact ⟨way, b, hb, rfl, hnew⟩
  · exact absurd hctag (habsent c hc)
  · exact absurd hctag (habsent c hc)

/-- A full row without the tag gives the least recently used way to the new block. -/
theorem RowAfter.evicted (h : RowAfter assoc tag clk old new) (hmiss : ¬ ∃ b ∈ old, b.tag = tag)
    (hfull : old.length = assoc) : ∃ v, IsVictim old v ∧ new = old.set v ⟨tag, clk⟩ := by
  rcases h with ⟨way, b, hb, htag, -⟩ | ⟨-, hfree, -⟩ | ⟨-, -, hvictim⟩
  · exact absurd ⟨b, List.mem_of_getElem? hb, htag⟩ hmiss
  · exact absurd hfull hfree
  · exact hvictim

/-- A block of another tag stays, unless the row is full and no block is older. -/
theorem RowAfter.mem_of_older (h : RowAfter assoc tag clk old new) {b : Block} (hb : b ∈ old) (htag : b.tag ≠ tag)
    (holder : old.length = assoc → ∃ c ∈ old, c.recency < b.recency) : b ∈ new := by
  rcases h with ⟨way, c, hc, hctag, rfl⟩ | ⟨-, -, rfl⟩ | ⟨-, hfull, v, ⟨c, hc, hleast⟩, rfl⟩
  · exact mem_set_of_ne hc hb fun hbc => htag (hbc ▸ hctag)
  · exact List.mem_append_left _ hb
  · obtain ⟨d, hd, hdb⟩ := holder hfull
    obtain ⟨j, hj⟩ := List.mem_iff_getElem?.1 hd
    refine mem_set_of_ne hc hb fun hbc => ?_
    exact absurd (hleast j d hj).1 (Nat.not_le.2 (hbc ▸ hdb))

end

/-! ### What an access makes of its level (R196, R197) -/

theorem Shaped.levelAfter_access {lv : CacheLevel} (h : Shaped lv) (addr clk : Nat) :
    LevelAfter addr clk lv (access lv addr clk).level :=
  access_spec ((LevelConfig.legal_iff _).2 h.1) h.2 addr clk

/-- Settles O37: an access hits exactly when its row holds its tag, and such a row is only restamped. -/
theorem hitRestampsInPlace : Obligations.HitRestampsInPlace := by
  intro lv addr clk hshaped
  obtain ⟨hcfg, -, hothers, hrow⟩ := hshaped.levelAfter_access addr clk
  have hhit := access_hit lv addr clk
  refine ⟨hhit, fun hempty => ?emptyRow, fun h => ⟨hcfg, hothers, hrow.restamped (hhit.1 h)⟩⟩
  rw [Bool.eq_false_iff, Ne, hhit, Hits, hempty]
  exact fun ⟨_, hb, _⟩ => List.not_mem_nil hb

/-- Settles O38: `access_spec` says what the one row becomes, which holds the address and, on a miss in a full row, gave
its least recently used way. -/
theorem missAllocatesOrEvicts : Obligations.MissAllocatesOrEvicts := by
  intro lv addr clk hshaped
  have hlevel := hshaped.levelAfter_access addr clk
  have ⟨_, _, _, hrow⟩ := hlevel
  exact ⟨hlevel, ⟨_, hrow.accessed_mem, rfl⟩, hrow.evicted⟩

/-! ### Small associativities (R210) -/

/-- A row that has room for the given blocks only, and holds them, holds nothing else. -/
theorem mem_row_iff_of_length_le {row blocks : Row} (hdistinct : blocks.Nodup) (hholds : ∀ b ∈ blocks, b ∈ row)
    (hroom : row.length ≤ blocks.length) (b : Block) : b ∈ row ↔ b ∈ blocks :=
  ((List.subperm_of_subset hdistinct hholds).perm_of_length_le hroom).mem_iff.symm

/-- With one way, the row holds the accessed block and nothing else. -/
theorem RowAfter.mem_iff_oneWay {tag clk : Nat} {old new : Row} (h : RowAfter 1 tag clk old new)
    (hlen : old.length ≤ 1) (b : Block) : b ∈ new ↔ b ∈ [⟨tag, clk⟩] :=
  mem_row_iff_of_length_le (List.nodup_singleton _) (List.forall_mem_singleton.2 h.accessed_mem) (h.length_le hlen) b

/-- With two ways, the row holds the blocks of the last two tags and nothing else: the second access cannot evict the
first block, since any other block of the row is older. -/
theorem RowAfter.mem_iff_twoWays {tag₁ tag₂ clk : Nat} {old mid new : Row} (h₁ : RowAfter 2 tag₁ clk old mid)
    (h₂ : RowAfter 2 tag₂ (clk + 1) mid new) (hne : tag₁ ≠ tag₂) (hlen : old.length ≤ 2)
    (htags : (old.map (·.tag)).Nodup) (hpast : ∀ b ∈ old, b.recency < clk) (b : Block) :
    b ∈ new ↔ b ∈ [⟨tag₁, clk⟩, ⟨tag₂, clk + 1⟩] := by
  have hdistinct : ([⟨tag₁, clk⟩, ⟨tag₂, clk + 1⟩] : Row).Nodup := by simp [hne]
  have hmid : mid.Nodup := (h₁.tags_nodup htags).of_map
  have holder : mid.length = 2 → ∃ c ∈ mid, c.recency < clk := by
    intro hfull
    have hsingle : mid ≠ [⟨tag₁, clk⟩] := fun h => by rw [h] at hfull; cases hfull
    rcases (hmid.ne_singleton_iff _).1 hsingle with hnil | ⟨c, hc, hcne⟩
    · rw [hnil] at hfull; cases hfull
    · exact ⟨c, hc, hpast c ((h₁.mem c hc).resolve_left hcne)⟩
  have hkept : ⟨tag₁, clk⟩ ∈ new := h₂.mem_of_older h₁.accessed_mem hne holder
  have hholds := List.forall_mem_cons.2 ⟨hkept, List.forall_mem_singleton.2 h₂.accessed_mem⟩
  exact mem_row_iff_of_length_le hdistinct hholds (h₂.length_le (h₁.length_le hlen)) b

section
variable {lv : CacheLevel} {clk : Nat}

/-- The row of an address is one of the level's rows. -/
theorem CacheLevel.Inv.row_mem (h : lv.Inv clk) (addr : Nat) : lv.rows.getD (rowOf lv.cfg addr) [] ∈ lv.rows := by
  have hlt : rowOf lv.cfg addr < lv.rows.length := h.rowCount ▸ rowOf_lt h.legal addr
  rw [List.getD_eq_getElem _ _ hlt]
  exact List.getElem_mem hlt

/-- An access of a sound level, seen at the row of an address that shares it. -/
theorem CacheLevel.Inv.rowAfter_access (h : lv.Inv clk) (clk' : Nat) {addr other : Nat}
    (hrow : rowOf lv.cfg addr = rowOf lv.cfg other) :
    RowAfter lv.cfg.assoc (tagOf lv.cfg addr) clk' (lv.rows.getD (rowOf lv.cfg other) [])
      ((access lv addr clk').level.rows.getD (rowOf lv.cfg other) []) := by
  obtain ⟨-, -, -, hafter⟩ := access_spec h.legal h.rowCount addr clk'
  rwa [hrow] at hafter

/-- With one way, an access leaves its own tag in its row and no other. -/
theorem hits_access_oneWay (h : lv.Inv clk) (hassoc : lv.cfg.assoc = 1) {a x : Nat}
    (hx : rowOf lv.cfg x = rowOf lv.cfg a) :
    Hits (access lv a clk).level x ↔ tagOf lv.cfg x = tagOf lv.cfg a := by
  have hafter := h.rowAfter_access clk hx.symm
  have hlen := h.capacity _ (h.row_mem x)
  rw [hassoc] at hafter hlen
  have hmem := hafter.mem_iff_oneWay hlen
  show (∃ b ∈ (access lv a clk).level.rows.getD (rowOf lv.cfg x) [], b.tag = tagOf lv.cfg x) ↔ _
  simp only [hmem, List.mem_singleton, exists_eq_left, eq_comm]

/-- With two ways, two accesses of one row with different tags leave these two tags in the row and no other. -/
theorem hits_access_access_twoWays (h : lv.Inv clk) (hassoc : lv.cfg.assoc = 2) {a b x : Nat} (ha : a < 8192)
    (hrow : rowOf lv.cfg b = rowOf lv.cfg a) (htag : tagOf lv.cfg a ≠ tagOf lv.cfg b)
    (hx : rowOf lv.cfg x = rowOf lv.cfg a) :
    Hits (access (access lv a clk).level b (clk + 1)).level x ↔
      tagOf lv.cfg x = tagOf lv.cfg a ∨ tagOf lv.cfg x = tagOf lv.cfg b := by
  have hfirst := h.rowAfter_access clk hx.symm
  have hsecond := (access_inv h ha).rowAfter_access (clk + 1) (hrow.trans hx.symm)
  rw [show (access lv a clk).level.cfg = lv.cfg from rfl] at hsecond
  have hlen := h.capacity _ (h.row_mem x)
  rw [hassoc] at hfirst hsecond hlen
  have hmem := hfirst.mem_iff_twoWays hsecond htag hlen (h.tagsDistinct _ (h.row_mem x))
    (h.stampsPast _ (h.row_mem x))
  show (∃ c ∈ (access (access lv a clk).level b (clk + 1)).level.rows.getD (rowOf lv.cfg x) [],
    c.tag = tagOf lv.cfg x) ↔ _
  simp only [hmem, List.mem_cons, List.not_mem_nil, or_false, exists_eq_or_imp, exists_eq_left, eq_comm]

end

/-- Settles O39: after any two accesses the row holds exactly their two tags, and every access leaves a sound level for
the next pair: A and B, then B and A, then A and C. -/
theorem lruEvictsLeastRecentlyUsed : Obligations.LruEvictsLeastRecentlyUsed := by
  rintro lv clk a b c hinv hassoc ha hb hc hrowB hrowC hab hca hcb l1 l2 l3 l4 rfl rfl rfl rfl
  have hinv1 := access_inv hinv ha
  have hinv2 := access_inv hinv1 hb
  have hAB {x} := hits_access_access_twoWays (x := x) hinv hassoc ha hrowB hab
  have hBA {x} := hits_access_access_twoWays (x := x) hinv1 hassoc hb hrowB.symm hab.symm
  have hAC {x} := hits_access_access_twoWays (x := x) hinv2 hassoc ha hrowC hca.symm
  refine ⟨(hAB rfl).2 (.inl rfl), (hAB hrowB).2 (.inr rfl), fun hitC => ?missC, (hAC rfl).2 (.inl rfl),
    (hAC hrowC).2 (.inr rfl), fun hitB => ?missB⟩
  case missC => exact ((hBA (hrowC.trans hrowB.symm)).1 hitC).elim hcb hca
  case missB => exact ((hAC hrowB).1 hitB).elim hab.symm hcb.symm

/-- Settles O40: each access leaves its own tag alone in the row, so the other address misses. -/
theorem directMappedAlternationMisses : Obligations.DirectMappedAlternationMisses := by
  intro lv clk a b hinv hassoc ha _ hrow htag
  exact ⟨fun hit => htag ((hits_access_oneWay hinv hassoc hrow).1 hit).symm,
    fun hit => htag ((hits_access_oneWay (access_inv hinv ha) hassoc hrow.symm).1 hit)⟩

end Sys2Proof.Machine
end

section
/-! PROOFS. The probes of `lw` and `sw` (45_cache_hierarchy.md R200, R205, R207). -/

namespace Sys2Proof.Machine

/-- A load makes the read walk at its effective address, with the clock and `pc` of the instruction. -/
theorem exec_lw_probes (rA rB : Reg) (imm7 : Imm7) (s : State) :
    ∃ t, exec (.lw rA rB imm7) s = .next t ∧
      t.cache = (readWalk 1 s.cache (eaNum s.regs[rA] imm7) s.clk s.pc).levels ∧
      t.events = s.events ++ (readWalk 1 s.cache (eaNum s.regs[rA] imm7) s.clk s.pc).events := by
  rw [← effectiveAddr_eq_eaNum]
  exact ⟨_, exec_lw_eq rA rB imm7 s, rfl, rfl⟩

/-- A store makes the write walk at its effective address, with the clock and `pc` of the instruction. -/
theorem exec_sw_probes (rA rB : Reg) (imm7 : Imm7) (s : State) :
    ∃ t, exec (.sw rA rB imm7) s = .next t ∧
      t.cache = (writeWalk 1 s.cache (eaNum s.regs[rA] imm7) s.clk s.pc).levels ∧
      t.events = s.events ++ (writeWalk 1 s.cache (eaNum s.regs[rA] imm7) s.clk s.pc).events := by
  rw [← effectiveAddr_eq_eaNum]
  exact ⟨_, exec_sw_eq rA rB imm7 s, rfl, rfl⟩

/-- Settles O30: the walk unrolled over no level, one and two, by hit or miss at each. -/
theorem loadProbeWalk : Obligations.LoadProbeWalk := by
  rintro rA rB imm7 s ea rfl hshaped
  obtain ⟨t, hexec, hcache, hevents⟩ := exec_lw_probes rA rB imm7 s
  refine ⟨t, hexec, fun hs => ?noLevel, fun l1 hs => ?oneLevel, fun l1 l2 hs => ?twoLevels⟩ <;>
    rw [hs] at hcache hevents hshaped
  case noLevel => exact ⟨hcache, hevents.trans (List.append_nil _)⟩
  case oneLevel =>
    refine ⟨_, (hshaped l1 (by simp)).levelAfter_access _ _, ?_, fun hit => ?_, fun miss => ?_⟩
    · by_cases hit : Hits l1 (eaNum s.regs[rA] imm7)
      · rw [hcache, readWalk_hit hit]
      · rw [hcache, readWalk_miss hit, readWalk_nil]
    · rw [hevents, readWalk_hit hit]
    · rw [hevents, readWalk_miss miss, readWalk_nil]
  case twoLevels =>
    refine ⟨_, _, (hshaped l1 (by simp)).levelAfter_access _ _, (hshaped l2 (by simp)).levelAfter_access _ _,
      fun hit => ?_, fun miss hit => ?_, fun miss₁ miss₂ => ?_⟩
    · rw [hcache, hevents, readWalk_hit hit]
      exact ⟨rfl, rfl⟩
    · rw [hcache, hevents, readWalk_miss miss, readWalk_hit hit]
      exact ⟨rfl, rfl⟩
    · rw [hcache, hevents, readWalk_miss miss₁, readWalk_miss miss₂, readWalk_nil]
      exact ⟨rfl, rfl⟩

/-- Settles O31: the write walk visits every level and emits one event there, whatever the access finds. -/
theorem storeProbeWalk : Obligations.StoreProbeWalk := by
  rintro rA rB imm7 s ea rfl hshaped
  obtain ⟨t, hexec, hcache, hevents⟩ := exec_sw_probes rA rB imm7 s
  refine ⟨t, hexec, fun hs => ?noLevel, fun l1 hs => ?oneLevel, fun l1 l2 hs => ?twoLevels⟩ <;>
    rw [hs] at hcache hevents hshaped
  case noLevel => exact ⟨hcache, hevents.trans (List.append_nil _)⟩
  case oneLevel => exact ⟨_, (hshaped l1 (by simp)).levelAfter_access _ _, hcache, hevents⟩
  case twoLevels =>
    exact ⟨_, _, (hshaped l1 (by simp)).levelAfter_access _ _, (hshaped l2 (by simp)).levelAfter_access _ _,
      hcache, hevents⟩

theorem readProbe_of_noLevel {s : State} (h : s.cache = []) (addr : Nat) : readProbe s addr = s := by
  simp only [readProbe, h, readWalk_nil, emit, List.append_nil]
  rw [← h]

theorem writeProbe_of_noLevel {s : State} (h : s.cache = []) (addr : Nat) : writeProbe s addr = s := by
  simp only [writeProbe, h, writeWalk_nil, emit, List.append_nil]
  rw [← h]

/-- Settles O32: with no level a probe is the identity, so `lw` and `sw` leave cache and output to their other parts,
which do not touch them. -/
theorem noLevelsNoProbe : Obligations.NoLevelsNoProbe := by
  intro s addr hs
  refine ⟨readProbe_of_noLevel hs addr, writeProbe_of_noLevel hs addr, fun rA rB imm7 =>
    ⟨⟨_, exec_lw_eq rA rB imm7 s, ?load⟩, ⟨_, exec_sw_eq rA rB imm7 s, ?store⟩⟩⟩
  case load => rw [readProbe_of_noLevel (s := writeReg s rB _) hs]; exact ⟨rfl, rfl⟩
  case store => rw [writeProbe_of_noLevel (s := memWrite s _ _) hs]; exact ⟨rfl, rfl⟩

end Sys2Proof.Machine
end

section
/-! PROOFS. Which launches are accepted (45_cache_hierarchy.md R191, 60_exceptions.md R253). -/

namespace Sys2Proof.Machine

theorem resetRelease_run_of_oversized {image : List Word} (h : 8192 < image.length) (cfgs : List LevelConfig) :
    (resetRelease image cfgs).run = .failed .imageError := by
  rw [resetRelease, Config.memCells, if_pos h]

theorem resetRelease_run_of_configError {image : List Word} (himage : image.length ≤ 8192) {cfgs : List LevelConfig}
    {level : Nat} (h : configErrorLevel cfgs = some level) :
    (resetRelease image cfgs).run = .failed (.configError level) := by
  rw [resetRelease, Config.memCells, if_neg (Nat.not_lt.2 himage), h]

/-- Settles O47: an oversized image and a configuration error each end in their own failure, and without them the launch
runs. -/
theorem launchAcceptedIffLegal : Obligations.LaunchAcceptedIffLegal := by
  refine fun image cfgs => ⟨fun hrun => ?accepted, fun ⟨himage, hcount, hlegal⟩ => ?runs⟩
  case accepted =>
    have himage : image.length ≤ 8192 := by
      by_contra hlong
      rw [resetRelease_run_of_oversized (Nat.not_le.1 hlong)] at hrun
      cases hrun
    cases hconfig : configErrorLevel cfgs with
    | some level => rw [resetRelease_run_of_configError himage hconfig] at hrun; cases hrun
    | none =>
      obtain ⟨hcount, hlegal⟩ := configErrorLevel_eq_none.1 hconfig
      exact ⟨himage, hcount, fun c hc => (LevelConfig.legal_iff c).1 (hlegal c hc)⟩
  case runs => rw [resetRelease_of_accepted himage hcount hlegal, reset_run]

end Sys2Proof.Machine
end

section
/-! PROOFS. The output of the core (46_interfaces_and_log.md): the events of a step and the status outputs. -/

namespace Sys2Proof.Machine

/-! ### The events of a step (R232, R233) -/

/-- `es` are events of one access made at `pc` to `n` levels numbered from `k`: one event for each level reached, the
first for level `k` and each next one for the level after it. -/
def InLevelOrder (pc : Word) (k n : Nat) (es : List Event) : Prop :=
  es.length ≤ n ∧ ∀ i e, es[i]? = some e → ∃ kind addr row, e = Event.access (i + k) kind pc addr row

theorem inLevelOrder_nil (pc : Word) (k n : Nat) : InLevelOrder pc k n [] :=
  ⟨Nat.zero_le n, fun _ _ h => nomatch h⟩

theorem InLevelOrder.cons {pc : Word} {k n : Nat} {es : List Event} (h : InLevelOrder pc (k + 1) n es)
    (kind : EventKind) (addr row : Nat) : InLevelOrder pc k (n + 1) (.access k kind pc addr row :: es) := by
  obtain ⟨hlength, hlevels⟩ := h
  refine ⟨Nat.succ_le_succ hlength, fun i e he => ?_⟩
  cases i with
  | zero =>
    obtain rfl : Event.access k kind pc addr row = e := Option.some.inj he
    exact ⟨kind, addr, row, by rw [Nat.zero_add]⟩
  | succ i =>
    rw [Nat.succ_add_eq_add_succ]
    exact hlevels i e he

theorem readWalk_inLevelOrder (k : Nat) (levels : List CacheLevel) (addr clk : Nat) (pc : Word) :
    InLevelOrder pc k levels.length (readWalk k levels addr clk pc).events := by
  induction levels generalizing k with
  | nil => exact inLevelOrder_nil pc k 0
  | cons lv rest ih =>
    by_cases hit : Hits lv addr
    · rw [readWalk_hit hit]
      exact (inLevelOrder_nil pc (k + 1) rest.length).cons _ _ _
    · rw [readWalk_miss hit]
      exact (ih (k + 1)).cons _ _ _

theorem writeWalk_inLevelOrder (k : Nat) (levels : List CacheLevel) (addr clk : Nat) (pc : Word) :
    InLevelOrder pc k levels.length (writeWalk k levels addr clk pc).events := by
  induction levels generalizing k with
  | nil => exact inLevelOrder_nil pc k 0
  | cons lv rest ih =>
    rw [writeWalk_cons]
    exact (ih (k + 1)).cons _ _ _

/-- A state whose output is that of `s` and, after it, the events of one access at the `pc` of `s`. -/
def ExtendsOutput (s t : State) : Prop :=
  ∃ es, t.events = s.events ++ es ∧ InLevelOrder s.pc 1 s.cache.length es

theorem extendsOutput_of_events_eq {s t : State} (h : t.events = s.events) : ExtendsOutput s t :=
  ⟨[], by rw [h, List.append_nil], inLevelOrder_nil _ _ _⟩

/-- Of the bodies only the probes emit, and a probe emits the events of its walk. -/
theorem BodyResult.extendsOutput {s u : State} (h : BodyResult s u) : ExtendsOutput s u := by
  rcases h with rfl | ⟨d, v, rfl⟩ | ⟨d, ea, -, rfl⟩ | ⟨ea, v, -, rfl⟩
  · exact extendsOutput_of_events_eq rfl
  · exact extendsOutput_of_events_eq rfl
  · exact ⟨_, rfl, readWalk_inLevelOrder 1 s.cache ea s.clk s.pc⟩
  · exact ⟨_, rfl, writeWalk_inLevelOrder 1 s.cache ea s.clk s.pc⟩

/-- The common end of an instruction emits nothing more. -/
theorem exec_extendsOutput {i : Instr} {s t : State} (h : exec i s = .next t) : ExtendsOutput s t := by
  obtain ⟨u, npc, halt, hexec, hbody, -⟩ := exec_spec i s
  obtain rfl : retire u npc halt = t := Host.Outcome.next.inj (hexec.symm.trans h)
  exact hbody.extendsOutput

theorem step_extendsOutput {s t : State} (h : step s = .next t) : ExtendsOutput s t := by
  rcases step_next_cases h with ⟨-, hexec⟩ | ⟨-, rfl⟩
  · exact exec_extendsOutput hexec
  · exact extendsOutput_of_events_eq rfl

/-- Settles O41: a step extends the output by the events of at most one walk, which numbers the levels from 1. -/
theorem outputOnlyGrows : Obligations.OutputOnlyGrows :=
  ⟨fun _ => rfl, fun _ _ h => step_extendsOutput h⟩

/-! ### The status outputs (R237) -/

/-- Settles O51, by the run states: each raises its own output and no other, and has its own status code. -/
theorem statusFollowsRunState : Obligations.StatusFollowsRunState := by
  rintro ⟨_, _, _, run, _, _, _⟩
  cases run
  case failed e => cases e <;> simp [statusOf, exitCode]
  all_goals simp [statusOf, exitCode]

end Sys2Proof.Machine
end

section
/-! PROOFS. Reset and the two pre-run errors (70_reset_and_hazards.md R280, R281; 60_exceptions.md R252 to R255). -/

namespace Sys2Proof.Machine

/-! ### Refused launches -/

/-- The scan of the levels stops at the first illegal one, whose number is its position after the start `n`. -/
theorem firstIllegal_eq_some {n k : Nat} {cfgs : List LevelConfig} {c : LevelConfig} (hk : cfgs[k]? = some c)
    (hillegal : ¬ LegalLevel c) (hbefore : ∀ j d, j < k → cfgs[j]? = some d → LegalLevel d) :
    firstIllegal n cfgs = some (n + k) := by
  induction cfgs generalizing n k with
  | nil => cases hk
  | cons d rest ih =>
    cases k with
    | zero =>
      obtain rfl : d = c := Option.some.inj hk
      rw [firstIllegal, if_neg (mt (LevelConfig.legal_iff d).1 hillegal), Nat.add_zero]
    | succ k =>
      have hlegal : d.legal = true := (LevelConfig.legal_iff d).2 (hbefore 0 d k.succ_pos rfl)
      have hrest : ∀ j e, j < k → rest[j]? = some e → LegalLevel e := fun j e hj =>
        hbefore (j + 1) e (Nat.succ_lt_succ hj)
      rw [firstIllegal, if_pos hlegal, ih hk hrest, Nat.succ_add_eq_add_succ]

theorem configErrorLevel_of_count {cfgs : List LevelConfig} (h : 2 < cfgs.length) : configErrorLevel cfgs = some 0 := by
  rw [configErrorLevel, Config.maxLevels, if_pos h]

theorem configErrorLevel_of_illegal {k : Nat} {cfgs : List LevelConfig} {c : LevelConfig} (hcount : cfgs.length ≤ 2)
    (hk : cfgs[k]? = some c) (hillegal : ¬ LegalLevel c)
    (hbefore : ∀ j d, j < k → cfgs[j]? = some d → LegalLevel d) : configErrorLevel cfgs = some (k + 1) := by
  rw [configErrorLevel, Config.maxLevels, if_neg (Nat.not_lt.2 hcount), firstIllegal_eq_some hk hillegal hbefore,
    Nat.add_comm]

/-- Settles O10: the step of a refused launch names its error. -/
theorem refusedLaunchStopsByName : Obligations.RefusedLaunchStopsByName :=
  fun _ => ⟨fun _ => step_of_configError, step_of_imageError⟩

theorem step_faults_of_failed {s : State} {e : LaunchError} (h : s.run = .failed e) : ∃ f, step s = .fault f := by
  cases e with
  | configError k => exact ⟨_, step_of_configError h⟩
  | imageError => exact ⟨_, step_of_imageError h⟩

/-- Settles O48: the image is checked first, then the number of levels, then the levels from the first on. -/
theorem refusedLaunchNamesFirstError : Obligations.RefusedLaunchNamesFirstError := by
  refine fun image cfgs => ⟨fun hlong => ?oversized, fun himage hcount => ?tooManyLevels,
    fun himage hcount k c hk hillegal hbefore => ?illegalLevel, fun _ => step_faults_of_failed⟩
  case oversized => exact resetRelease_run_of_oversized hlong cfgs
  case tooManyLevels => exact resetRelease_run_of_configError himage (configErrorLevel_of_count hcount)
  case illegalLevel =>
    exact resetRelease_run_of_configError himage (configErrorLevel_of_illegal hcount hk hillegal hbefore)

/-! ### Accepted launches and reset -/

/-- Settles O43: registers and `pc` are those of the reset state, memory is the image, and every level is empty. -/
theorem launchedStateSound : Obligations.LaunchedStateSound := by
  intro image cfgs himage hcount hlegal
  rw [resetRelease_of_accepted himage hcount hlegal]
  obtain ⟨hreset, -⟩ := resetStateSound
  refine ⟨⟨hreset.reg0, hreset.pcRange, Memory.ofImage_wf image himage, ?levelCount, ?levels⟩, reset_run⟩
  case levelCount => exact (List.length_map emptyLevel).trans_le hcount
  case levels =>
    intro lv hlv
    obtain ⟨c, hc, rfl⟩ := List.mem_map.1 hlv
    exact emptyLevel_inv ((LevelConfig.legal_iff c).2 (hlegal c hc)) _

/-- Settles O50: the assertion reads nothing of the earlier state, and a core held in reset stands still. -/
theorem resetForgetsEverything : Obligations.ResetForgetsEverything :=
  fun _ _ => ⟨rfl, step_of_inReset rfl, rfl⟩

end Sys2Proof.Machine
end
